-- ==== Sys2Proof/Word.lean ====
section
/-! DEFINITION. The widths of the machine (spec/00_scope.md R5): words, register numbers, immediates, data addresses. -/

namespace Sys2Proof

/-- A 16-bit register value, memory word or instruction word; bit 15 is the most significant (R5, R7, R8). -/
abbrev Word := BitVec 16

/-- A 3-bit register field: its value n selects general register n (spec/10_state.md R21). -/
abbrev Reg := BitVec 3

/-- The 7-bit immediate of format RRI (R5; spec/30_encoding.md R62). -/
abbrev Imm7 := BitVec 7

/-- The 10-bit immediate of format RI (R5; spec/30_encoding.md R63). -/
abbrev Imm10 := BitVec 10

/-- A 6-bit data address, the data address decoder's output DMemAddr[5:0] (R5; spec/20_memory.md R42). -/
abbrev DAddr := BitVec 6

end Sys2Proof
end

