-- ==== Sys2Proof/Config.lean ====
section
/-! DEFINITION. The parameters the source leaves open (spec/00_scope.md R6) and the free values of the model. A parameter
that is plain data is a field of `Config`; a free value is a constant with no body, so that no proof can see what it is. -/

namespace Sys2Proof

/-- LI_EXT: how li widens its 10-bit immediate (R6; spec/30_encoding.md R72). -/
inductive LiExt where
  | sign
  | zero
deriving DecidableEq, Repr

/-- UNARY_RT: what a one-source RRR word does when its Rt field is not 000 (R6; spec/30_encoding.md R74). -/
inductive UnaryRt where
  | fault
  | ignore
deriving DecidableEq, Repr

/-- UNINIT: what reading a register or data word that nothing has written does (R6; spec/10_state.md R37). -/
inductive Uninit where
  | fault
  | arbitrary
deriving DecidableEq, Repr

/-- One event of the I/O history: `read a v` is IoRead(a, v), `write a v` is IoWrite(a, v) (spec/10_state.md R35). -/
inductive IoEvent where
  | read (a : DAddr) (v : Word)
  | write (a : DAddr) (v : Word)
deriving DecidableEq, Repr

/-- The parameters of a run that are plain data (R6, spec/10_state.md R39). PROGRAM is an argument of `launch`, and
IO_ORACLE is the constant `Config.ioOracle`. -/
structure Config where
  /-- CMP_SIGNED: slt and sgt compare as two's-complement signed numbers (spec/40_rrr_register_ops.md R115). -/
  cmpSigned : Bool
  /-- LI_EXT. -/
  liExt : LiExt
  /-- UNARY_RT. -/
  unaryRt : UnaryRt
  /-- DAD outside 0..63: the sign-extended immediates it maps beside the identity on 0..63, each with its data address
  (spec/20_memory.md R43). A value that is not listed is not decoded. -/
  dadExtra : List (Word × DAddr)
  /-- UNINIT. -/
  uninit : Uninit
  /-- RESET_PC (spec/70_reset_and_hazards.md R171). -/
  resetPc : Word
deriving DecidableEq, Repr

/-- Every parameter at the default the spec chose (R6). -/
def Config.specDefault : Config where
  cmpSigned := true
  liExt := .sign
  unaryRt := .fault
  dadExtra := []
  uninit := .fault
  resetPc := 0

/-- The parameters of `State.reset`: the spec's defaults but for UNINIT, which is at its other setting.
DESIGN CHOICE (notes/assumptions/2.md), unsafe: an unwritten register then reads as the value `State.reset` gives it. -/
def Config.atReset : Config := { Config.specDefault with uninit := .arbitrary }

/-- IO_ORACLE: the answer to a read of the I/O region, given the history so far and the address. Any 16-bit value, under
no law (R6; spec/20_memory.md R45). DESIGN CHOICE of the spec (D11; notes/assumptions/11.md), safe: a free value. -/
opaque Config.ioOracle : List IoEvent → DAddr → Word

/-- What a DMem cell that nothing has written reads as under UNINIT = arbitrary: one fixed value per cell, which the model
does not know (spec/10_state.md R37). DESIGN CHOICE (D12; notes/assumptions/4.md), safe: a free value. -/
opaque Config.dmemPowerUp : DAddr → Word

end Sys2Proof
end

