-- ==== Sys2Proof/Syntax.lean ====
section
/-! DEFINITION. The instructions, one constructor per row of spec/opcode_table.json, and the abstract form of an assembly
line (spec/30_encoding.md R77 to R81). -/

namespace Sys2Proof

/-- An instruction. Operands stand in the assembler's order (spec/30_encoding.md R80): the destination first where there is
one. The last four are the pseudo-instructions (spec/43_pseudo_instructions.md R140): spellings of nand, and, addi and beq
that no word decodes to (R82; notes/assumptions/20.md). -/
inductive Instr where
  /-- R101: `Reg[Rd] ← Reg[Rs] + Reg[Rt]`. -/
  | add (rd rs rt : Reg)
  /-- R102: `Reg[Rd] ← Reg[Rs] + 1`. -/
  | inc (rd rs : Reg)
  /-- R103: `Reg[Rd] ← Reg[Rs] - Reg[Rt]`. -/
  | sub (rd rs rt : Reg)
  /-- R104: `Reg[Rd] ← Reg[Rs] - 1`. -/
  | dec (rd rs : Reg)
  /-- R105: bitwise AND. -/
  | and (rd rs rt : Reg)
  /-- R106: bitwise inclusive OR. -/
  | or (rd rs rt : Reg)
  /-- R107: the complement of the bitwise AND. -/
  | nand (rd rs rt : Reg)
  /-- R108: bitwise exclusive OR. -/
  | xor (rd rs rt : Reg)
  /-- R109: shift left by one. -/
  | shfl (rd rs : Reg)
  /-- R110: logical shift right by one. -/
  | shfr (rd rs : Reg)
  /-- R111: shift left by two. -/
  | sll (rd rs : Reg)
  /-- R112: logical shift right by two. -/
  | srr (rd rs : Reg)
  /-- R113: arithmetic shift right by one. -/
  | sra (rd rs : Reg)
  /-- R114: the low 16 bits of the product. -/
  | mul (rd rs rt : Reg)
  /-- R115: 1 if Rs is less than Rt, else 0. -/
  | slt (rd rs rt : Reg)
  /-- R116: 1 if Rs is greater than Rt, else 0. -/
  | sgt (rd rs rt : Reg)
  /-- R121: `Reg[Rt] ← Reg[Rs] + SignExtImm`. -/
  | addi (rt rs : Reg) (imm : Imm7)
  /-- R122: `Reg[Rt] ← Reg[Rs] - SignExtImm`. -/
  | subi (rt rs : Reg) (imm : Imm7)
  /-- R123: branch to the absolute target if Rs equals Rt. -/
  | beq (rs rt : Reg) (imm : Imm7)
  /-- R131: load a word from an absolute data address into Rs. -/
  | lw (rs : Reg) (imm : Imm10)
  /-- R132: store Rs at an absolute data address. -/
  | sw (rs : Reg) (imm : Imm10)
  /-- R133: jump to the absolute target if Rs is not zero. -/
  | jnz (rs : Reg) (imm : Imm10)
  /-- R134: load the widened immediate into Rs. -/
  | li (rs : Reg) (imm : Imm10)
  /-- R141, pseudo: `nand Rd, Rs, Rs`. -/
  | not (rd rs : Reg)
  /-- R142, pseudo: `and Rd, Rs, Rs`. -/
  | mov (rd rs : Reg)
  /-- R143, pseudo: `addi Rs, Rs, 0`, for the register the assembler chose. -/
  | nop (rs : Reg)
  /-- R144, pseudo: `beq Rs, Rs, Imm`, for the register the assembler chose. -/
  | jmp (rs : Reg) (imm : Imm7)
deriving DecidableEq, Repr

/-- The 27 mnemonics an assembler accepts (spec/30_encoding.md R80, R81). -/
inductive Mnemonic where
  | add | inc | sub | dec | and | or | nand | xor
  | shfl | shfr | sll | srr | sra | mul | slt | sgt
  | addi | subi | beq | lw | sw | jnz | li
  | not | mov | nop | jmp
deriving DecidableEq, Repr

/-- An operand of an assembly line: a register `R0` .. `R7` (R78) or an integer (R79). -/
inductive AsmOperand where
  | reg (r : Reg)
  | imm (n : Int)
deriving DecidableEq, Repr

/-- An assembly line: a mnemonic and its operands in order (R77). -/
structure AsmLine where
  op : Mnemonic
  args : List AsmOperand
deriving DecidableEq, Repr

end Sys2Proof
end

