-- ==== Sys2Proof/WellFormed.lean ====
section
/-! DEFINITION. What is well formed: an instruction as the hardware has it, the parameters and the program of a launch.
Field widths need no check: they are in the types. -/

namespace Sys2Proof

/-- A machine instruction, the one canonical reading of its word, and not one of the four assembler spellings, which the
hardware does not know (spec/30_encoding.md R82, spec/43_pseudo_instructions.md R140). -/
def Instr.wellFormed : Instr → Bool
  | .add _ _ _ => true
  | .inc _ _ => true
  | .sub _ _ _ => true
  | .dec _ _ => true
  | .and _ _ _ => true
  | .or _ _ _ => true
  | .nand _ _ _ => true
  | .xor _ _ _ => true
  | .shfl _ _ => true
  | .shfr _ _ => true
  | .sll _ _ => true
  | .srr _ _ => true
  | .sra _ _ => true
  | .mul _ _ _ => true
  | .slt _ _ _ => true
  | .sgt _ _ _ => true
  | .addi _ _ _ => true
  | .subi _ _ _ => true
  | .beq _ _ _ => true
  | .lw _ _ => true
  | .sw _ _ => true
  | .jnz _ _ => true
  | .li _ _ => true
  | .not _ _ => false
  | .mov _ _ => false
  | .nop _ => false
  | .jmp _ _ => false

/-- The machine instruction an instruction stands for: each pseudo-instruction's expansion, every other instruction itself
(spec/43_pseudo_instructions.md R140 to R144). -/
def Instr.expand : Instr → Instr
  | .not rd rs => .nand rd rs rs
  | .mov rd rs => .and rd rs rs
  | .nop rs => .addi rs rs 0
  | .jmp rs imm => .beq rs rs imm
  | .add rd rs rt => .add rd rs rt
  | .inc rd rs => .inc rd rs
  | .sub rd rs rt => .sub rd rs rt
  | .dec rd rs => .dec rd rs
  | .and rd rs rt => .and rd rs rt
  | .or rd rs rt => .or rd rs rt
  | .nand rd rs rt => .nand rd rs rt
  | .xor rd rs rt => .xor rd rs rt
  | .shfl rd rs => .shfl rd rs
  | .shfr rd rs => .shfr rd rs
  | .sll rd rs => .sll rd rs
  | .srr rd rs => .srr rd rs
  | .sra rd rs => .sra rd rs
  | .mul rd rs rt => .mul rd rs rt
  | .slt rd rs rt => .slt rd rs rt
  | .sgt rd rs rt => .sgt rd rs rt
  | .addi rt rs imm => .addi rt rs imm
  | .subi rt rs imm => .subi rt rs imm
  | .beq rs rt imm => .beq rs rt imm
  | .lw rs imm => .lw rs imm
  | .sw rs imm => .sw rs imm
  | .jnz rs imm => .jnz rs imm
  | .li rs imm => .li rs imm

/-- Legal parameters (spec/00_scope.md R6): RESET_PC in 0..63 (spec/70_reset_and_hazards.md R171), and a DAD that stays the
identity on 0..63: it lists only values outside, each at most once (spec/20_memory.md R43). -/
def Config.wellFormed (c : Config) : Bool :=
  decide (c.resetPc.toNat < 64) &&
  decide (c.dadExtra.Pairwise fun p q => p.1.toNat < q.1.toNat) &&
  c.dadExtra.all fun p => decide (64 ≤ p.1.toNat)

/-- A valid PROGRAM: at most 64 words (spec/70_reset_and_hazards.md R173). -/
def programWellFormed (program : List Word) : Bool :=
  decide (program.length ≤ 64)

end Sys2Proof
end

