-- ==== Sys2Proof/Decode.lean ====
section
/-! DEFINITION. The decoder (spec/30_encoding.md R60 to R76), the encoder beside it (R83), the opcode table (R84) and the
assembler's abstract form (R77 to R81). -/

namespace Sys2Proof

/-! ### Fields -/

/-- Bits 15..13, in every format (R60). -/
def opcodeField (w : Word) : BitVec 3 := w.extractLsb' 13 3

/-- Rs, bits 12..10, in every format (R61 to R63). -/
def rsField (w : Word) : Reg := w.extractLsb' 10 3

/-- Rt, bits 9..7, in RRR and RRI (R61, R62). -/
def rtField (w : Word) : Reg := w.extractLsb' 7 3

/-- Rd, bits 6..4, in RRR (R61). -/
def rdField (w : Word) : Reg := w.extractLsb' 4 3

/-- Funct, bits 3..0, in RRR (R61). -/
def functField (w : Word) : BitVec 4 := w.extractLsb' 0 4

/-- imm7, bits 6..0, in RRI (R62). -/
def imm7Field (w : Word) : Imm7 := w.extractLsb' 0 7

/-- imm10, bits 9..0, in RI (R63). -/
def imm10Field (w : Word) : Imm10 := w.extractLsb' 0 10

/-! ### The decoder -/

/-- What a word decodes to: a machine instruction, or the verdict ReservedEncoding with the word (R73). -/
inductive Decoded where
  | instr (i : Instr)
  | reservedEncoding (w : Word)
deriving DecidableEq, Repr

/-- A one-source RRR word: reserved if its Rt field is not 000 and UNARY_RT = fault; under UNARY_RT = ignore the field is not
examined (R74). -/
def decodeOneSource (u : UnaryRt) (w : Word) (i : Instr) : Decoded :=
  if rtField w ≠ 0 ∧ u = .fault then .reservedEncoding w else .instr i

/-- The RRR group, selected by Funct: its bit 3 and its bits 2..0 (R66, R73). -/
def decodeRrr (u : UnaryRt) (w : Word) : Decoded :=
  let rd := rdField w
  let rs := rsField w
  let rt := rtField w
  match (functField w).getLsbD 3, (functField w).extractLsb' 0 3 with
  | false, 0b000#3 => .instr (.add rd rs rt)
  | false, 0b001#3 => decodeOneSource u w (.inc rd rs)
  | false, 0b010#3 => .instr (.sub rd rs rt)
  | false, 0b011#3 => decodeOneSource u w (.dec rd rs)
  | false, 0b100#3 => .instr (.and rd rs rt)
  | false, 0b101#3 => .instr (.or rd rs rt)
  | false, 0b110#3 => .instr (.nand rd rs rt)
  | false, 0b111#3 => .instr (.xor rd rs rt)
  | true, 0b000#3 => decodeOneSource u w (.shfl rd rs)
  | true, 0b001#3 => decodeOneSource u w (.shfr rd rs)
  | true, 0b010#3 => decodeOneSource u w (.sll rd rs)
  | true, 0b011#3 => decodeOneSource u w (.srr rd rs)
  | true, 0b100#3 => decodeOneSource u w (.sra rd rs)
  | true, 0b101#3 => .instr (.mul rd rs rt)
  | true, 0b110#3 => .instr (.slt rd rs rt)
  | true, 0b111#3 => .instr (.sgt rd rs rt)

/-- The decoder: total on words, by the opcode alone and, for RRR, the Funct (R64, R65, R73). It never answers a
pseudo-instruction (R82). -/
def decode (u : UnaryRt) (w : Word) : Decoded :=
  let rs := rsField w
  let rt := rtField w
  match opcodeField w with
  | 0b000#3 => decodeRrr u w
  | 0b001#3 => .instr (.addi rt rs (imm7Field w))
  | 0b010#3 => .instr (.subi rt rs (imm7Field w))
  | 0b011#3 => .instr (.beq rs rt (imm7Field w))
  | 0b100#3 => .instr (.lw rs (imm10Field w))
  | 0b101#3 => .instr (.sw rs (imm10Field w))
  | 0b110#3 => .instr (.jnz rs (imm10Field w))
  | 0b111#3 => .instr (.li rs (imm10Field w))

/-- The instruction the decoder reads from the instruction whose `nbits` bits are `w`, bit 0 the least significant of the one
16-bit word (R60): bits the row does not give are 0. `none` where the decoder refuses, and where `w` is longer than one word.
The parameter UNARY_RT is at its default (notes/assumptions/24.md). -/
def decodeTableWord (nbits w : Nat) : Option Instr :=
  if nbits ≤ 16 then
    match decode Config.specDefault.unaryRt (BitVec.ofNat 16 (w % 2 ^ nbits)) with
    | .instr i => some i
    | .reservedEncoding _ => none
  else none

/-! ### The encoder -/

/-- A word of format RRR: `(0 << 13) | (Rs << 10) | (Rt << 7) | (Rd << 4) | Funct` (R61). -/
def rrrWord (rs rt rd : Reg) (funct : BitVec 4) : Word :=
  (rs.setWidth 16 <<< 10) ||| (rt.setWidth 16 <<< 7) ||| (rd.setWidth 16 <<< 4) ||| funct.setWidth 16

/-- A word of format RRI: `(Opcode << 13) | (Rs << 10) | (Rt << 7) | imm7` (R62). -/
def rriWord (opcode : BitVec 3) (rs rt : Reg) (imm : Imm7) : Word :=
  (opcode.setWidth 16 <<< 13) ||| (rs.setWidth 16 <<< 10) ||| (rt.setWidth 16 <<< 7) ||| imm.setWidth 16

/-- A word of format RI: `(Opcode << 13) | (Rs << 10) | imm10` (R63). -/
def riWord (opcode : BitVec 3) (rs : Reg) (imm : Imm10) : Word :=
  (opcode.setWidth 16 <<< 13) ||| (rs.setWidth 16 <<< 10) ||| imm.setWidth 16

/-- The word of an instruction (R83); a pseudo-instruction's is that of the machine instruction it is spelled with
(spec/43_pseudo_instructions.md R141 to R144). -/
def encode : Instr → Word
  | .add rd rs rt => rrrWord rs rt rd 0b0000#4
  | .inc rd rs => rrrWord rs 0 rd 0b0001#4
  | .sub rd rs rt => rrrWord rs rt rd 0b0010#4
  | .dec rd rs => rrrWord rs 0 rd 0b0011#4
  | .and rd rs rt => rrrWord rs rt rd 0b0100#4
  | .or rd rs rt => rrrWord rs rt rd 0b0101#4
  | .nand rd rs rt => rrrWord rs rt rd 0b0110#4
  | .xor rd rs rt => rrrWord rs rt rd 0b0111#4
  | .shfl rd rs => rrrWord rs 0 rd 0b1000#4
  | .shfr rd rs => rrrWord rs 0 rd 0b1001#4
  | .sll rd rs => rrrWord rs 0 rd 0b1010#4
  | .srr rd rs => rrrWord rs 0 rd 0b1011#4
  | .sra rd rs => rrrWord rs 0 rd 0b1100#4
  | .mul rd rs rt => rrrWord rs rt rd 0b1101#4
  | .slt rd rs rt => rrrWord rs rt rd 0b1110#4
  | .sgt rd rs rt => rrrWord rs rt rd 0b1111#4
  | .addi rt rs imm => rriWord 0b001#3 rs rt imm
  | .subi rt rs imm => rriWord 0b010#3 rs rt imm
  | .beq rs rt imm => rriWord 0b011#3 rs rt imm
  | .lw rs imm => riWord 0b100#3 rs imm
  | .sw rs imm => riWord 0b101#3 rs imm
  | .jnz rs imm => riWord 0b110#3 rs imm
  | .li rs imm => riWord 0b111#3 rs imm
  | .not rd rs => rrrWord rs rs rd 0b0110#4
  | .mov rd rs => rrrWord rs rs rd 0b0100#4
  | .nop rs => rriWord 0b001#3 rs rs 0
  | .jmp rs imm => rriWord 0b011#3 rs rs imm

/-! ### The opcode table -/

/-- A row of spec/opcode_table.json: a word w is the row's instruction when `w & mask = pattern` (R84). -/
structure OpRow where
  pattern : Word
  mask : Word
deriving DecidableEq, Repr

/-- Whether a word matches a row (R84). -/
def OpRow.matchesWord (r : OpRow) (w : Word) : Bool := decide (w &&& r.mask = r.pattern)

/-- The match and mask columns of spec/opcode_table.json. -/
def opRow : Mnemonic → OpRow
  | .add => { pattern := 0x0000, mask := 0xE00F }
  | .inc => { pattern := 0x0001, mask := 0xE38F }
  | .sub => { pattern := 0x0002, mask := 0xE00F }
  | .dec => { pattern := 0x0003, mask := 0xE38F }
  | .and => { pattern := 0x0004, mask := 0xE00F }
  | .or => { pattern := 0x0005, mask := 0xE00F }
  | .nand => { pattern := 0x0006, mask := 0xE00F }
  | .xor => { pattern := 0x0007, mask := 0xE00F }
  | .shfl => { pattern := 0x0008, mask := 0xE38F }
  | .shfr => { pattern := 0x0009, mask := 0xE38F }
  | .sll => { pattern := 0x000A, mask := 0xE38F }
  | .srr => { pattern := 0x000B, mask := 0xE38F }
  | .sra => { pattern := 0x000C, mask := 0xE38F }
  | .mul => { pattern := 0x000D, mask := 0xE00F }
  | .slt => { pattern := 0x000E, mask := 0xE00F }
  | .sgt => { pattern := 0x000F, mask := 0xE00F }
  | .addi => { pattern := 0x2000, mask := 0xE000 }
  | .subi => { pattern := 0x4000, mask := 0xE000 }
  | .beq => { pattern := 0x6000, mask := 0xE000 }
  | .lw => { pattern := 0x8000, mask := 0xE000 }
  | .sw => { pattern := 0xA000, mask := 0xE000 }
  | .jnz => { pattern := 0xC000, mask := 0xE000 }
  | .li => { pattern := 0xE000, mask := 0xE000 }
  | .not => { pattern := 0x0006, mask := 0xE00F }
  | .mov => { pattern := 0x0004, mask := 0xE00F }
  | .nop => { pattern := 0x2000, mask := 0xE07F }
  | .jmp => { pattern := 0x6000, mask := 0xE000 }

/-- The 23 machine rows, from which alone a decoder is built (R84). -/
def machineMnemonics : List Mnemonic :=
  [.add, .inc, .sub, .dec, .and, .or, .nand, .xor, .shfl, .shfr, .sll, .srr, .sra, .mul, .slt, .sgt,
   .addi, .subi, .beq, .lw, .sw, .jnz, .li]

/-! ### The assembler -/

/-- The assembly line of an instruction: the mnemonic and the operands in the order of R80. An immediate is written as its
field's unsigned value. nop and jmp do not show their register. -/
def disassemble : Instr → AsmLine
  | .add rd rs rt => { op := .add, args := [.reg rd, .reg rs, .reg rt] }
  | .inc rd rs => { op := .inc, args := [.reg rd, .reg rs] }
  | .sub rd rs rt => { op := .sub, args := [.reg rd, .reg rs, .reg rt] }
  | .dec rd rs => { op := .dec, args := [.reg rd, .reg rs] }
  | .and rd rs rt => { op := .and, args := [.reg rd, .reg rs, .reg rt] }
  | .or rd rs rt => { op := .or, args := [.reg rd, .reg rs, .reg rt] }
  | .nand rd rs rt => { op := .nand, args := [.reg rd, .reg rs, .reg rt] }
  | .xor rd rs rt => { op := .xor, args := [.reg rd, .reg rs, .reg rt] }
  | .shfl rd rs => { op := .shfl, args := [.reg rd, .reg rs] }
  | .shfr rd rs => { op := .shfr, args := [.reg rd, .reg rs] }
  | .sll rd rs => { op := .sll, args := [.reg rd, .reg rs] }
  | .srr rd rs => { op := .srr, args := [.reg rd, .reg rs] }
  | .sra rd rs => { op := .sra, args := [.reg rd, .reg rs] }
  | .mul rd rs rt => { op := .mul, args := [.reg rd, .reg rs, .reg rt] }
  | .slt rd rs rt => { op := .slt, args := [.reg rd, .reg rs, .reg rt] }
  | .sgt rd rs rt => { op := .sgt, args := [.reg rd, .reg rs, .reg rt] }
  | .addi rt rs imm => { op := .addi, args := [.reg rt, .reg rs, .imm imm.toNat] }
  | .subi rt rs imm => { op := .subi, args := [.reg rt, .reg rs, .imm imm.toNat] }
  | .beq rs rt imm => { op := .beq, args := [.reg rs, .reg rt, .imm imm.toNat] }
  | .lw rs imm => { op := .lw, args := [.reg rs, .imm imm.toNat] }
  | .sw rs imm => { op := .sw, args := [.reg rs, .imm imm.toNat] }
  | .jnz rs imm => { op := .jnz, args := [.reg rs, .imm imm.toNat] }
  | .li rs imm => { op := .li, args := [.reg rs, .imm imm.toNat] }
  | .not rd rs => { op := .not, args := [.reg rd, .reg rs] }
  | .mov rd rs => { op := .mov, args := [.reg rd, .reg rs] }
  | .nop _ => { op := .nop, args := [] }
  | .jmp _ imm => { op := .jmp, args := [.imm imm.toNat] }

/-- The field of N bits an assembler stores for an integer n: `n mod 2^N` when −2^(N−1) <= n < 2^N, else it is not accepted
(R79). DESIGN CHOICE of the spec (D20; notes/assumptions/21.md), safe. -/
def immField (N : Nat) (n : Int) : Option (BitVec N) :=
  if -(2 ^ (N - 1) : Int) ≤ n ∧ n < 2 ^ N then some (BitVec.ofInt N n) else none

/-- The instruction an assembly line stands for, or `none` for operands of another shape or an immediate out of range (R77 to
R81). nop and jmp use register 0 (D22; notes/assumptions/20.md). -/
def assemble (l : AsmLine) : Option Instr :=
  match l.op, l.args with
  | .add, [.reg rd, .reg rs, .reg rt] => some (.add rd rs rt)
  | .inc, [.reg rd, .reg rs] => some (.inc rd rs)
  | .sub, [.reg rd, .reg rs, .reg rt] => some (.sub rd rs rt)
  | .dec, [.reg rd, .reg rs] => some (.dec rd rs)
  | .and, [.reg rd, .reg rs, .reg rt] => some (.and rd rs rt)
  | .or, [.reg rd, .reg rs, .reg rt] => some (.or rd rs rt)
  | .nand, [.reg rd, .reg rs, .reg rt] => some (.nand rd rs rt)
  | .xor, [.reg rd, .reg rs, .reg rt] => some (.xor rd rs rt)
  | .shfl, [.reg rd, .reg rs] => some (.shfl rd rs)
  | .shfr, [.reg rd, .reg rs] => some (.shfr rd rs)
  | .sll, [.reg rd, .reg rs] => some (.sll rd rs)
  | .srr, [.reg rd, .reg rs] => some (.srr rd rs)
  | .sra, [.reg rd, .reg rs] => some (.sra rd rs)
  | .mul, [.reg rd, .reg rs, .reg rt] => some (.mul rd rs rt)
  | .slt, [.reg rd, .reg rs, .reg rt] => some (.slt rd rs rt)
  | .sgt, [.reg rd, .reg rs, .reg rt] => some (.sgt rd rs rt)
  | .addi, [.reg rt, .reg rs, .imm n] => (immField 7 n).map (.addi rt rs)
  | .subi, [.reg rt, .reg rs, .imm n] => (immField 7 n).map (.subi rt rs)
  | .beq, [.reg rs, .reg rt, .imm n] => (immField 7 n).map (.beq rs rt)
  | .lw, [.reg rs, .imm n] => (immField 10 n).map (.lw rs)
  | .sw, [.reg rs, .imm n] => (immField 10 n).map (.sw rs)
  | .jnz, [.reg rs, .imm n] => (immField 10 n).map (.jnz rs)
  | .li, [.reg rs, .imm n] => (immField 10 n).map (.li rs)
  | .not, [.reg rd, .reg rs] => some (.not rd rs)
  | .mov, [.reg rd, .reg rs] => some (.mov rd rs)
  | .nop, [] => some (.nop 0)
  | .jmp, [.imm n] => (immField 7 n).map (.jmp 0)
  | _, _ => none

end Sys2Proof
end

