-- ==== Sys2Proof/Machine/Operands.lean ====
section
/-! DEFINITION. Values and operand forms: truncation, signed reading, extension, the ALU and shifter results, li's widening,
branch targets and the data address decoder. -/

namespace Sys2Proof.Machine

/-- `trunc16(r) = r mod 65536`, with the non-negative remainder (spec/00_scope.md R8). -/
def trunc16 (r : Int) : Word := BitVec.ofInt 16 r

/-- `signed(v)`: v below 32768, else v − 65536 (R8). PRESUMED two's complement (notes/assumptions/22.md). -/
def signed (v : Word) : Int := if v.toNat < 32768 then v.toNat else (v.toNat : Int) - 65536

/-- `sext_N(v) = v` when v < 2^(N−1), else `v + 65536 − 2^N` (R10). -/
def sext {n : Nat} (v : BitVec n) : Word :=
  BitVec.ofNat 16 (if v.toNat < 2 ^ (n - 1) then v.toNat else v.toNat + 65536 - 2 ^ n)

/-- `zext_N(v)`: the upper bits zero (R10). -/
def zext {n : Nat} (v : BitVec n) : Word := BitVec.ofNat 16 v.toNat

/-- add's sum, exact and then truncated (spec/40_rrr_register_ops.md R101, R118). -/
def aluAdd (a b : Word) : Word := trunc16 (a.toNat + b.toNat)

/-- inc's sum (R102). -/
def aluInc (a : Word) : Word := trunc16 (a.toNat + 1)

/-- sub's difference: the minuend is Rs, the subtrahend Rt (R103). -/
def aluSub (a b : Word) : Word := trunc16 ((a.toNat : Int) - b.toNat)

/-- dec's difference (R104). -/
def aluDec (a : Word) : Word := trunc16 ((a.toNat : Int) - 1)

/-- Bitwise AND (R105). -/
def aluAnd (a b : Word) : Word := a &&& b

/-- Bitwise inclusive OR (R106; notes/assumptions/26.md). -/
def aluOr (a b : Word) : Word := a ||| b

/-- The complement of the bitwise AND, within 16 bits (R107). -/
def aluNand (a b : Word) : Word := ~~~(a &&& b)

/-- Bitwise exclusive OR (R108; notes/assumptions/26.md). -/
def aluXor (a b : Word) : Word := a ^^^ b

/-- mul's result: the low 16 bits of the product (R114). DESIGN CHOICE of the spec (D4; notes/assumptions/14.md). -/
def aluMul (a b : Word) : Word := trunc16 (a.toNat * b.toNat)

/-- Shift left by k on the unsigned value, truncated: shfl has k = 1, sll k = 2 (R109, R111). -/
def shiftLeft (k : Nat) (a : Word) : Word := trunc16 (a.toNat * 2 ^ k : Nat)

/-- Logical shift right by k, `floor(a / 2^k)` on the unsigned value: shfr has k = 1, srr k = 2 (R110, R112). The zero fill
is a DESIGN CHOICE of the spec (D6; notes/assumptions/15.md). -/
def shiftRight (k : Nat) (a : Word) : Word := trunc16 (a.toNat / 2 ^ k : Nat)

/-- sra: `(a >> 1) | (a & 0x8000)`, the leading bit kept (R113). -/
def shiftRightArith (a : Word) : Word := shiftRight 1 a ||| (a &&& 0x8000)

/-- addi's sum with the sign-extended immediate (spec/41_rri_immediate_and_beq.md R121). -/
def aluAddImm (imm : Imm7) (a : Word) : Word := aluAdd a (sext imm)

/-- subi's difference: the immediate is sign-extended first and then subtracted (R122). -/
def aluSubImm (imm : Imm7) (a : Word) : Word := aluSub a (sext imm)

/-- beq's target: the absolute instruction address `zext_16(imm7)` (spec/30_encoding.md R69). -/
def beqTarget (imm : Imm7) : Word := zext imm

/-- jnz's target: the absolute instruction address `zext_16(imm10)` (R71). -/
def jnzTarget (imm : Imm10) : Word := zext imm

/-- The value li loads, widened as LI_EXT says (R72). -/
def liValue (c : Config) (imm : Imm10) : Word :=
  match c.liExt with
  | .sign => sext imm
  | .zero => zext imm

/-- The DAD outside 0..63, as the parameter lists it. -/
def dadLookup : List (Word × DAddr) → Word → Option DAddr
  | [], _ => none
  | (k, a) :: rest, s => if k = s then some a else dadLookup rest s

/-- DAD(s): the identity on 0..63, and elsewhere what the parameter gives, if anything (spec/20_memory.md R43). -/
def dad (c : Config) (s : Word) : Option DAddr :=
  if s.toNat < 64 then some (BitVec.ofNat 6 s.toNat) else dadLookup c.dadExtra s

end Sys2Proof.Machine
end

