-- ==== Sys2Proof/Machine/Flags.lean ====
section
/-! DEFINITION. The machine has no flags (spec/10_state.md R30): these are the comparison signals, made and consumed inside
one instruction. -/

namespace Sys2Proof.Machine

/-- beq's signal: equality of all 16 bits (spec/41_rri_immediate_and_beq.md R123). -/
def equalSignal (a b : Word) : Bool := decide (a = b)

/-- jnz's signal: some bit is not 0 (spec/42_ri_memory_jump_li.md R133). -/
def nonZeroSignal (a : Word) : Bool := decide (a ≠ 0)

/-- slt's signal, signed or unsigned as CMP_SIGNED says (spec/40_rrr_register_ops.md R115). -/
def lessSignal (c : Config) (a b : Word) : Bool :=
  if c.cmpSigned then decide (signed a < signed b) else decide (a.toNat < b.toNat)

/-- sgt's signal, signed or unsigned as CMP_SIGNED says (R116). -/
def greaterSignal (c : Config) (a b : Word) : Bool :=
  if c.cmpSigned then decide (signed a > signed b) else decide (a.toNat > b.toNat)

/-- The whole 16-bit word a comparison writes: 0x0001 or 0x0000 (R115, R116). -/
def signalWord (b : Bool) : Word := if b then 1 else 0

end Sys2Proof.Machine
end

