-- ==== Sys2Proof/Machine/State.lean ====
section
/-! DEFINITION. The machine's state as plain data (spec/10_state.md R20), the reasons a step can stop, and the state after
reset. -/

namespace Sys2Proof.Machine

/-- A general register: the 16-bit value it holds, and whether anything has written it since reset. A cell that nothing has
written is the spec's "no value" (spec/10_state.md R20, R37); it still holds the value it powered up with
(notes/assumptions/28.md). -/
structure RegCell where
  value : Word
  written : Bool
deriving DecidableEq, Repr

/-- A memory of 16-bit words: the (word address, word) pairs that hold a value, in the canonical form `Memory.wf`. A word
that is not listed holds "no value" (DMem) or is "not loaded" (IMem) (spec/10_state.md R20, spec/20_memory.md R48). -/
structure Memory where
  cells : List (Nat × Word)
deriving DecidableEq, Repr

/-- The whole state (spec/10_state.md R20), and the parameters of the run (R39). -/
structure State where
  /-- The model's own field: the parameters, fixed for a run (R39; notes/assumptions/1.md). -/
  cfg : Config
  /-- The program counter (R25, R26). -/
  pc : Word
  /-- The eight general registers (R21). -/
  x : Vector RegCell 8
  /-- The instruction memory (R33). -/
  imem : Memory
  /-- The data memory (R34). -/
  dmem : Memory
  /-- The I/O event history, oldest first (R35). -/
  io : List IoEvent
deriving DecidableEq, Repr

/-- The cell an UninitRead fault names (spec/10_state.md R37). -/
inductive CellName where
  | reg (r : Reg)
  | dmem (a : DAddr)
deriving DecidableEq, Repr

/-- The model faults: a closed list (spec/60_exceptions.md R151). Each is the model's verdict that the source gives the
situation no meaning; none is a hardware event, and the faulting instruction has changed nothing (spec/00_scope.md R12). -/
inductive Fault where
  /-- Raised by the fetch of a step that starts with `pc >= 64` (spec/10_state.md R28). Safe: the chip goes on in some way
  the source does not give. -/
  | fetchOutOfRange (pc : Word)
  /-- Raised by the fetch of a cell PROGRAM did not load (spec/20_memory.md R41). Safe: the chip reads some word there. -/
  | fetchNotLoaded (pc : Word)
  /-- Raised by decoding a one-source RRR word whose Rt field is not 000, under UNARY_RT = fault (spec/30_encoding.md R74).
  Safe: the chip does something the source does not give. -/
  | reservedEncoding (w : Word)
  /-- Raised by reading a register or DMem cell that nothing has written, under UNINIT = fault only (spec/10_state.md R37,
  spec/60_exceptions.md R151), so never in a run from `State.reset`, where UNINIT = arbitrary.
  Safe: the chip's cell holds some value. -/
  | uninitRead (which : CellName)
  /-- Raised by lw and sw when the DAD does not map the sign-extended immediate (spec/20_memory.md R43). Safe: the chip's
  decoder yields some address. -/
  | dataAddressUndecoded (s : Word)
deriving DecidableEq, Repr

/-- The refusals: a closed list. -/
inductive Refusal where
  /-- Raised by an arm of `exec` whose instruction has no meaning in the model. No arm raises it: every instruction has its
  meaning. Safe. -/
  | notModelled (mnemonic : String)
deriving DecidableEq, Repr

/-- The state right after reset with nothing loaded (spec/10_state.md R38, spec/70_reset_and_hazards.md R170 to R172): pc at
RESET_PC, DMem without a value, an empty history. The registers' value is a DESIGN CHOICE, zero, unsafe
(notes/assumptions/3.md); the spec gives none. -/
def State.reset : State where
  cfg := Config.atReset
  pc := Config.atReset.resetPc
  x := Vector.replicate 8 { value := 0, written := false }
  imem := { cells := [] }
  dmem := { cells := [] }
  io := []

end Sys2Proof.Machine
end

