-- ==== Sys2Proof/Machine/Ops.lean ====
section
/-! DEFINITION. The named operations over registers, memories, the I/O region and the program counter, and the launch. There
is no operation that takes an exception or returns from one: the hardware has none (spec/60_exceptions.md R150, R154, R155;
notes/assumptions/19.md). -/

namespace Sys2Proof.Machine

/-- What a step answers (spec/00_scope.md R12). -/
abbrev Result := Host.Outcome State Fault Refusal

/-! ### Memories of words -/

/-- The word a list of cells holds at an address, if any. -/
def lookupCell : List (Nat × Word) → Nat → Option Word
  | [], _ => none
  | (b, w) :: rest, a => if a = b then some w else lookupCell rest a

/-- The list with the word at an address replaced or inserted, addresses staying in rising order. -/
def insertCell (a : Nat) (v : Word) : List (Nat × Word) → List (Nat × Word)
  | [] => [(a, v)]
  | (b, w) :: rest =>
    if a < b then (a, v) :: (b, w) :: rest
    else if a = b then (a, v) :: rest
    else (b, w) :: insertCell a v rest

/-- The word at an address; `none` where nothing is listed: what an unlisted address reads as is no value. -/
def Memory.get (m : Memory) (a : Nat) : Option Word := lookupCell m.cells a

/-- The memory with one word written: a write gives the cell a value whatever it held (spec/10_state.md R37). -/
def Memory.put (m : Memory) (a : Nat) (v : Word) : Memory := { cells := insertCell a v m.cells }

/-- The canonical form of a memory of `size` words: addresses strictly rising and below `size`. No entry can equal what an
unlisted address reads as, since that is no value. -/
abbrev Memory.wf (size : Nat) (m : Memory) : Prop :=
  m.cells.Pairwise (fun p q => p.1 < q.1) ∧ ∀ p ∈ m.cells, p.1 < size

/-- The cells of a list of words placed from an address on. -/
def placeWords : Nat → List Word → List (Nat × Word)
  | _, [] => []
  | i, w :: rest => (i, w) :: placeWords (i + 1) rest

/-! ### Registers and the program counter -/

/-- The cell of general register r; all eight numbers are reachable (spec/10_state.md R21). -/
def State.cell (s : State) (r : Reg) : RegCell := s.x[r.toNat]'r.isLt

/-- The value general register r holds. -/
def State.reg (s : State) (r : Reg) : Word := (s.cell r).value

/-- `x[r] <- v`: any register, register 0 among them, takes the value (spec/10_state.md R23, R37). -/
def State.setReg (s : State) (r : Reg) (v : Word) : State :=
  { s with x := s.x.set r.toNat { value := v, written := true } r.isLt }

/-- Whether reading r yields a value: something has written it, or UNINIT = arbitrary (R37). -/
def State.readable (s : State) (r : Reg) : Bool :=
  decide (s.cfg.uninit = .arbitrary) || (s.cell r).written

/-- `x[r]` as an operand (spec/00_scope.md R9): the continuation gets its value. Only under UNINIT = fault does the read of a
register that nothing has written raise UninitRead: R37 states that fault, and spec/40_rrr_register_ops.md R100,
spec/41_rri_immediate_and_beq.md R120 and spec/42_ri_memory_jump_li.md R132, R133 state it of the instructions. Under
UNINIT = arbitrary, as at `State.reset`, every read yields a value. -/
def withReg (s : State) (r : Reg) (k : Word → Result) : Result :=
  if s.readable r then k (s.reg r) else .fault (.uninitRead (.reg r))

/-- `pc <- t`. -/
def State.jump (s : State) (t : Word) : State := { s with pc := t }

/-- `pc <- pc + 1` (spec/10_state.md R27). -/
def State.advance (s : State) : State := s.jump (s.pc + 1)

/-- The pc update of a branch: the target if taken, else `pc + 1` (spec/41_rri_immediate_and_beq.md R123,
spec/42_ri_memory_jump_li.md R133). -/
def State.branch (s : State) (taken : Bool) (target : Word) : State :=
  if taken then s.jump target else s.advance

/-! ### The data space -/

/-- The event history with one event appended (spec/20_memory.md R45, R58). -/
def State.logIo (s : State) (e : IoEvent) : State := { s with io := s.io ++ [e] }

/-- `DMem[a] <- v` (spec/20_memory.md R44). -/
def State.setDMem (s : State) (a : DAddr) (v : Word) : State := { s with dmem := s.dmem.put a.toNat v }

/-- The value a DMem cell reads as: the last one stored; where nothing was stored, none under UNINIT = fault and the cell's
unknown power-up value under UNINIT = arbitrary (spec/10_state.md R37, spec/20_memory.md R44). -/
def State.dmemValue (s : State) (a : DAddr) : Option Word :=
  match s.dmem.get a.toNat with
  | some v => some v
  | none =>
    match s.cfg.uninit with
    | .fault => none
    | .arbitrary => some (Config.dmemPowerUp a)

/-- Whether a data address is in the I/O region: bit 5 selects I/O (spec/20_memory.md R42). -/
def isIo (a : DAddr) : Bool := a.getLsbD 5

/-- The data address of an I/O event. -/
def eventAddr : IoEvent → DAddr
  | .read a _ => a
  | .write a _ => a

/-- `MemRead(a, 1)`: the continuation gets the word read and the state after the read (spec/20_memory.md R44 to R46). Only under
UNINIT = fault does the read of a DMem word that nothing has stored raise UninitRead, as spec/10_state.md R37 and
spec/42_ri_memory_jump_li.md R131 state. -/
def memRead (s : State) (a : DAddr) (k : Word → State → Result) : Result :=
  if isIo a then k (Config.ioOracle s.io a) (s.logIo (.read a (Config.ioOracle s.io a)))
  else
    match s.dmemValue a with
    | some v => k v s
    | none => .fault (.uninitRead (.dmem a))

/-- `MemWrite(a, 1, v)` (spec/20_memory.md R44, R45, R47). -/
def memWrite (s : State) (a : DAddr) (v : Word) : State :=
  if isIo a then s.logIo (.write a v) else s.setDMem a v

/-- The effective data address of lw and sw: sign-extend, then decode; the continuation gets it, or the access raises
DataAddressUndecoded (spec/20_memory.md R43; notes/assumptions/32.md). -/
def withDataAddr (s : State) (imm : Imm10) (k : DAddr → Result) : Result :=
  match dad s.cfg (sext imm) with
  | some a => k a
  | none => .fault (.dataAddressUndecoded (sext imm))

/-! ### The instruction space -/

/-- Fetch `IMem[pc]`: FetchOutOfRange first, then FetchNotLoaded, else the continuation gets the word (spec/10_state.md R28,
R29; spec/20_memory.md R41). -/
def withFetched (s : State) (k : Word → Result) : Result :=
  if s.pc.toNat < 64 then
    match s.imem.get s.pc.toNat with
    | some w => k w
    | none => .fault (.fetchNotLoaded s.pc)
  else .fault (.fetchOutOfRange s.pc)

/-- The state with an instruction word loaded into the cell the next step fetches. A pc of 64 or more names no cell: it is
first set to 0 (notes/assumptions/25.md). -/
def State.placeAtPc (s : State) (w : Word) : State :=
  if s.pc.toNat < 64 then { s with imem := s.imem.put s.pc.toNat w }
  else { s with pc := 0, imem := s.imem.put 0 w }

/-! ### Shapes of register instructions -/

/-- A two-source operation: reads Rs, then Rt, writes the result to Rd, falls through (spec/40_rrr_register_ops.md R100). -/
def binaryOp (f : Word → Word → Word) (rd rs rt : Reg) (s : State) : Result :=
  withReg s rs fun a => withReg s rt fun b => .next (s.setReg rd (f a b)).advance

/-- A one-source operation: reads Rs alone, writes the result to the destination, falls through (R100;
spec/41_rri_immediate_and_beq.md R120 for addi and subi, whose destination is Rt). -/
def unaryOp (f : Word → Word) (rd rs : Reg) (s : State) : Result :=
  withReg s rs fun a => .next (s.setReg rd (f a)).advance

/-! ### Launch -/

/-- The launch state of given parameters, register contents and PROGRAM (spec/70_reset_and_hazards.md R170 to R173): pc at
RESET_PC, no register written, DMem without a value, IMem the program from address 0, an empty history. `none` for a RESET_PC
outside 0..63, a DAD that is not the identity on 0..63 or a PROGRAM of more than 64 words: not a valid launch. -/
def launch (c : Config) (regs : Vector Word 8) (program : List Word) : Option State :=
  if c.wellFormed && programWellFormed program then
    some {
      cfg := c
      pc := c.resetPc
      x := regs.map fun v => { value := v, written := false }
      imem := { cells := placeWords 0 program }
      dmem := { cells := [] }
      io := [] }
  else none

end Sys2Proof.Machine
end

