-- ==== Sys2Proof/Machine/Pseudo.lean ====
section
/-! DEFINITION. The pseudo-instructions not, mov, nop and jmp: the behaviour of the machine instruction each is spelled with
(spec/43_pseudo_instructions.md R140 to R144; notes/assumptions/20.md). -/

namespace Sys2Proof.Machine

/-- not: nand of the register with itself (R141). -/
def execNot (rd rs : Reg) (s : State) : Result := binaryOp aluNand rd rs rs s

/-- mov: and of the register with itself (R142). -/
def execMov (rd rs : Reg) (s : State) : Result := binaryOp aluAnd rd rs rs s

/-- nop: addi of 0 to the register the assembler chose, in place (R143). -/
def execNop (rs : Reg) (s : State) : Result := unaryOp (aluAddImm 0) rs rs s

/-- jmp: beq of the register the assembler chose with itself (R144). -/
def execJmp (rs : Reg) (imm : Imm7) (s : State) : Result :=
  withReg s rs fun a => withReg s rs fun b => .next (s.branch (equalSignal a b) (beqTarget imm))

end Sys2Proof.Machine
end

