-- ==== Sys2Proof/Machine/Ri.lean ====
section
/-! DEFINITION. The RI instructions lw, sw, jnz and li (spec/42_ri_memory_jump_li.md R130 to R134). -/

namespace Sys2Proof.Machine

/-- lw: reads no register (R131). -/
def execLw (rs : Reg) (imm : Imm10) (s : State) : Result :=
  withDataAddr s imm fun a => memRead s a fun v s' => .next (s'.setReg rs v).advance

/-- sw: the register is read before the address is decoded (R132; spec/60_exceptions.md R153). -/
def execSw (rs : Reg) (imm : Imm10) (s : State) : Result :=
  withReg s rs fun v => withDataAddr s imm fun a => .next (memWrite s a v).advance

/-- jnz (R133). -/
def execJnz (rs : Reg) (imm : Imm10) (s : State) : Result :=
  withReg s rs fun a => .next (s.branch (nonZeroSignal a) (jnzTarget imm))

/-- li: reads nothing and cannot fault (R134). -/
def execLi (rs : Reg) (imm : Imm10) (s : State) : Result :=
  .next (s.setReg rs (liValue s.cfg imm)).advance

end Sys2Proof.Machine
end

