-- ==== Sys2Proof/Machine/Rri.lean ====
section
/-! DEFINITION. The RRI instructions addi, subi and beq (spec/41_rri_immediate_and_beq.md R120 to R123). -/

namespace Sys2Proof.Machine

/-- addi: the destination is Rt (R121). -/
def execAddi (rt rs : Reg) (imm : Imm7) (s : State) : Result := unaryOp (aluAddImm imm) rt rs s

/-- subi: the destination is Rt (R122). -/
def execSubi (rt rs : Reg) (imm : Imm7) (s : State) : Result := unaryOp (aluSubImm imm) rt rs s

/-- beq (R123). -/
def execBeq (rs rt : Reg) (imm : Imm7) (s : State) : Result :=
  withReg s rs fun a => withReg s rt fun b => .next (s.branch (equalSignal a b) (beqTarget imm))

end Sys2Proof.Machine
end

