-- ==== Sys2Proof/Machine/Rrr.lean ====
section
/-! DEFINITION. The sixteen RRR instructions (spec/40_rrr_register_ops.md R100 to R118). -/

namespace Sys2Proof.Machine

/-- add (R101). -/
def execAdd (rd rs rt : Reg) (s : State) : Result := binaryOp aluAdd rd rs rt s

/-- inc (R102). -/
def execInc (rd rs : Reg) (s : State) : Result := unaryOp aluInc rd rs s

/-- sub (R103). -/
def execSub (rd rs rt : Reg) (s : State) : Result := binaryOp aluSub rd rs rt s

/-- dec (R104). -/
def execDec (rd rs : Reg) (s : State) : Result := unaryOp aluDec rd rs s

/-- and (R105). -/
def execAnd (rd rs rt : Reg) (s : State) : Result := binaryOp aluAnd rd rs rt s

/-- or (R106). -/
def execOr (rd rs rt : Reg) (s : State) : Result := binaryOp aluOr rd rs rt s

/-- nand (R107). -/
def execNand (rd rs rt : Reg) (s : State) : Result := binaryOp aluNand rd rs rt s

/-- xor (R108). -/
def execXor (rd rs rt : Reg) (s : State) : Result := binaryOp aluXor rd rs rt s

/-- shfl (R109). -/
def execShfl (rd rs : Reg) (s : State) : Result := unaryOp (shiftLeft 1) rd rs s

/-- shfr (R110). -/
def execShfr (rd rs : Reg) (s : State) : Result := unaryOp (shiftRight 1) rd rs s

/-- sll: always by exactly two (R111; notes/assumptions/27.md). -/
def execSll (rd rs : Reg) (s : State) : Result := unaryOp (shiftLeft 2) rd rs s

/-- srr: always by exactly two (R112; notes/assumptions/27.md). -/
def execSrr (rd rs : Reg) (s : State) : Result := unaryOp (shiftRight 2) rd rs s

/-- sra (R113). -/
def execSra (rd rs : Reg) (s : State) : Result := unaryOp shiftRightArith rd rs s

/-- mul (R114). -/
def execMul (rd rs rt : Reg) (s : State) : Result := binaryOp aluMul rd rs rt s

/-- slt (R115). -/
def execSlt (rd rs rt : Reg) (s : State) : Result :=
  binaryOp (fun a b => signalWord (lessSignal s.cfg a b)) rd rs rt s

/-- sgt (R116). -/
def execSgt (rd rs rt : Reg) (s : State) : Result :=
  binaryOp (fun a b => signalWord (greaterSignal s.cfg a b)) rd rs rt s

end Sys2Proof.Machine
end

