-- ==== Sys2Proof/Machine/Dispatch.lean ====
section
/-! DEFINITION. What each instruction does: one arm per constructor, each a call of its meaning. -/

namespace Sys2Proof.Machine

/-- The meaning of an instruction in a state (spec/10_state.md R29, step (4)). -/
def exec (i : Instr) (s : State) : Host.Outcome State Fault Refusal :=
  match i with
  | .add rd rs rt => Sys2Proof.Machine.execAdd rd rs rt s
  | .inc rd rs => Sys2Proof.Machine.execInc rd rs s
  | .sub rd rs rt => Sys2Proof.Machine.execSub rd rs rt s
  | .dec rd rs => Sys2Proof.Machine.execDec rd rs s
  | .and rd rs rt => Sys2Proof.Machine.execAnd rd rs rt s
  | .or rd rs rt => Sys2Proof.Machine.execOr rd rs rt s
  | .nand rd rs rt => Sys2Proof.Machine.execNand rd rs rt s
  | .xor rd rs rt => Sys2Proof.Machine.execXor rd rs rt s
  | .shfl rd rs => Sys2Proof.Machine.execShfl rd rs s
  | .shfr rd rs => Sys2Proof.Machine.execShfr rd rs s
  | .sll rd rs => Sys2Proof.Machine.execSll rd rs s
  | .srr rd rs => Sys2Proof.Machine.execSrr rd rs s
  | .sra rd rs => Sys2Proof.Machine.execSra rd rs s
  | .mul rd rs rt => Sys2Proof.Machine.execMul rd rs rt s
  | .slt rd rs rt => Sys2Proof.Machine.execSlt rd rs rt s
  | .sgt rd rs rt => Sys2Proof.Machine.execSgt rd rs rt s
  | .addi rt rs imm => Sys2Proof.Machine.execAddi rt rs imm s
  | .subi rt rs imm => Sys2Proof.Machine.execSubi rt rs imm s
  | .beq rs rt imm => Sys2Proof.Machine.execBeq rs rt imm s
  | .lw rs imm => Sys2Proof.Machine.execLw rs imm s
  | .sw rs imm => Sys2Proof.Machine.execSw rs imm s
  | .jnz rs imm => Sys2Proof.Machine.execJnz rs imm s
  | .li rs imm => Sys2Proof.Machine.execLi rs imm s
  | .not rd rs => Sys2Proof.Machine.execNot rd rs s
  | .mov rd rs => Sys2Proof.Machine.execMov rd rs s
  | .nop rs => Sys2Proof.Machine.execNop rs s
  | .jmp rs imm => Sys2Proof.Machine.execJmp rs imm s

end Sys2Proof.Machine
end

