-- ==== Sys2Proof/Machine/Step.lean ====
section
/-! DEFINITION. One step of the machine (spec/10_state.md R29). -/

namespace Sys2Proof.Machine

/-- One step: fetch, decode, execute, in the order of R29. -/
def step (s : State) : Host.Outcome State Fault Refusal :=
  withFetched s fun w =>
    match decode s.cfg.unaryRt w with
    | .instr i => exec i s
    | .reservedEncoding w => .fault (.reservedEncoding w)

/-- The state with an instruction stored where the next step fetches it: IMem has one 16-bit word per instruction, and bits
above `nbits` are 0 (notes/assumptions/25.md). -/
def State.withFetchWord (s : State) (nbits w : Nat) : State :=
  s.placeAtPc (BitVec.ofNat 16 (w % 2 ^ nbits))

end Sys2Proof.Machine
end

