-- ==== Sys2Proof/Safety.lean ====
section
/-! DEFINITION. What counts as a good state and a good end of a run (spec/60_exceptions.md R163), in the terms the statements
use. -/

namespace Sys2Proof.Machine

/-- The states the machine can be in: both memories in canonical form within their sizes (spec/10_state.md R33, R34), every
event of the history in the I/O region (R35), a pc a branch immediate or a fall-through can reach (spec/30_encoding.md R69,
R71), legal parameters (spec/00_scope.md R6). -/
def State.wf (s : State) : Prop :=
  s.imem.wf 64 ∧ s.dmem.wf 32 ∧ (∀ e ∈ s.io, isIo (eventAddr e) = true) ∧
  s.pc.toNat < 1024 ∧ s.cfg.wellFormed = true

/-- A run of k steps, which stops at the first fault (spec/00_scope.md R12). -/
def run : Nat → State → Result
  | 0, s => .next s
  | k + 1, s =>
    match step s with
    | .next t => run k t
    | .fault f => .fault f
    | .refused r => .refused r

/-- A final state: not faulted, and the step from it yields the identical state (R163). -/
def State.final (s : State) : Prop := step s = .next s

/-- A run ends successfully: it reaches a final state (R163). -/
def State.endsSuccessfully (s : State) : Prop :=
  ∃ k t, run k s = .next t ∧ State.final t

/-- A run faults (R163; spec/00_scope.md R12). -/
def State.runFaults (s : State) : Prop :=
  ∃ k f, run k s = .fault f

/-- The instruction the step from a state executes, if its fetch and its decoding succeed (spec/10_state.md R29). -/
def State.current (s : State) : Option Instr :=
  if s.pc.toNat < 64 then
    match s.imem.get s.pc.toNat with
    | some w =>
      match decode s.cfg.unaryRt w with
      | .instr i => some i
      | .reservedEncoding _ => none
    | none => none
  else none

end Sys2Proof.Machine
end

