-- ==== Sys2Proof/Certificates/Slice0/Obligations.lean ====
section
/-! DEFINITION. The statements, from the numbered rules of spec/, and the vocabulary they are written in. -/

namespace Sys2Proof.Claims

open Sys2Proof.Machine

/-! ### What an instruction reads and writes, as the spec lists it -/

/-- The registers an instruction reads, in the order it reads them (spec/10_state.md R23; spec/60_exceptions.md R153). -/
def sources : Instr → List Reg
  | .add _ rs rt => [rs, rt]
  | .inc _ rs => [rs]
  | .sub _ rs rt => [rs, rt]
  | .dec _ rs => [rs]
  | .and _ rs rt => [rs, rt]
  | .or _ rs rt => [rs, rt]
  | .nand _ rs rt => [rs, rt]
  | .xor _ rs rt => [rs, rt]
  | .shfl _ rs => [rs]
  | .shfr _ rs => [rs]
  | .sll _ rs => [rs]
  | .srr _ rs => [rs]
  | .sra _ rs => [rs]
  | .mul _ rs rt => [rs, rt]
  | .slt _ rs rt => [rs, rt]
  | .sgt _ rs rt => [rs, rt]
  | .addi _ rs _ => [rs]
  | .subi _ rs _ => [rs]
  | .beq rs rt _ => [rs, rt]
  | .lw _ _ => []
  | .sw rs _ => [rs]
  | .jnz rs _ => [rs]
  | .li _ _ => []
  | .not _ rs => [rs]
  | .mov _ rs => [rs]
  | .nop rs => [rs]
  | .jmp rs _ => [rs]

/-- The register an instruction writes, if any (spec/10_state.md R23). -/
def destination : Instr → Option Reg
  | .add rd _ _ => some rd
  | .inc rd _ => some rd
  | .sub rd _ _ => some rd
  | .dec rd _ => some rd
  | .and rd _ _ => some rd
  | .or rd _ _ => some rd
  | .nand rd _ _ => some rd
  | .xor rd _ _ => some rd
  | .shfl rd _ => some rd
  | .shfr rd _ => some rd
  | .sll rd _ => some rd
  | .srr rd _ => some rd
  | .sra rd _ => some rd
  | .mul rd _ _ => some rd
  | .slt rd _ _ => some rd
  | .sgt rd _ _ => some rd
  | .addi rt _ _ => some rt
  | .subi rt _ _ => some rt
  | .beq _ _ _ => none
  | .lw rs _ => some rs
  | .sw _ _ => none
  | .jnz _ _ => none
  | .li rs _ => some rs
  | .not rd _ => some rd
  | .mov rd _ => some rd
  | .nop rs => some rs
  | .jmp _ _ => none

/-- The data address of lw and sw (spec/20_memory.md R43), by the model's own expression for it. -/
def dataAddress (i : Instr) (s : State) : Option DAddr :=
  match i with
  | .lw _ imm => dad s.cfg (sext imm)
  | .sw _ imm => dad s.cfg (sext imm)
  | _ => none

/-- The DMem address an instruction stores to: sw's data address, where it is not an I/O address. -/
def storedAddress (i : Instr) (s : State) : Option DAddr :=
  match i with
  | .sw _ _ => (dataAddress i s).filter fun a => decide (a.toNat < 32)
  | _ => none

/-- The I/O events an instruction performs (spec/20_memory.md R58). -/
def ioEvents (i : Instr) (s : State) : List IoEvent :=
  match i, dataAddress i s with
  | .lw _ _, some a => if 32 ≤ a.toNat then [.read a (Config.ioOracle s.io a)] else []
  | .sw rs _, some a => if 32 ≤ a.toNat then [.write a (s.reg rs)] else []
  | _, _ => []

/-- The pc after an instruction (spec/10_state.md R27). -/
def nextPc (i : Instr) (s : State) : Word :=
  match i with
  | .beq rs rt imm => if s.reg rs = s.reg rt then imm.setWidth 16 else s.pc + 1
  | .jmp _ imm => imm.setWidth 16
  | .jnz rs imm => if s.reg rs ≠ 0 then imm.setWidth 16 else s.pc + 1
  | _ => s.pc + 1

/-- The fault an instruction raises, the first of checks (4) to (7) of spec/60_exceptions.md R153 that fails. -/
def firstFault (i : Instr) (s : State) : Option Fault :=
  match (sources i).find? (fun r => !s.readable r) with
  | some r => some (.uninitRead (.reg r))
  | none =>
    match i with
    | .lw _ imm =>
      match dad s.cfg (sext imm) with
      | none => some (.dataAddressUndecoded (sext imm))
      | some a =>
        if a.toNat < 32 ∧ s.dmem.get a.toNat = none ∧ s.cfg.uninit = .fault then some (.uninitRead (.dmem a)) else none
    | .sw _ imm =>
      match dad s.cfg (sext imm) with
      | none => some (.dataAddressUndecoded (sext imm))
      | some _ => none
    | _ => none

/-! ### Frames -/

/-- Every word of both memories reads as before. -/
def SameMemory (s t : State) : Prop :=
  (∀ a, t.dmem.get a = s.dmem.get a) ∧ ∀ a, t.imem.get a = s.imem.get a

/-- From s to t the one register r is written, with a value the result predicate allows; the pc goes on by one; the given
events enter the history; every other register, every memory word and the parameters are as before. -/
def WritesReg (s t : State) (r : Reg) (result : Word → Prop) (events : List IoEvent) : Prop :=
  result (t.reg r) ∧ (t.cell r).written = true ∧ (∀ q, q ≠ r → t.cell q = s.cell q) ∧ t.pc = s.pc + 1 ∧
  SameMemory s t ∧ t.io = s.io ++ events ∧ t.cfg = s.cfg

/-- From s to t nothing but the pc changes. -/
def ChangesOnlyPc (s t : State) : Prop :=
  (∀ q, t.cell q = s.cell q) ∧ SameMemory s t ∧ t.io = s.io ∧ t.cfg = s.cfg

/-! ### The shape of an instruction's rule: its assembly form, its encoding, its effect, its faults -/

/-- The rule of a two-source RRR instruction (spec/40_rrr_register_ops.md R100). -/
def TwoSourceRule (op : Mnemonic) (mk : Reg → Reg → Reg → Instr) (funct : Nat)
    (result : Config → Word → Word → Word → Prop) : Prop :=
  ∀ rd rs rt : Reg,
    assemble { op := op, args := [.reg rd, .reg rs, .reg rt] } = some (mk rd rs rt) ∧
    (encode (mk rd rs rt)).toNat = rs.toNat * 2 ^ 10 + rt.toNat * 2 ^ 7 + rd.toNat * 2 ^ 4 + funct ∧
    ∀ s : State,
      (s.readable rs = true → s.readable rt = true →
        ∃ t, exec (mk rd rs rt) s = .next t ∧ WritesReg s t rd (result s.cfg (s.reg rs) (s.reg rt)) []) ∧
      (s.readable rs = false → exec (mk rd rs rt) s = .fault (.uninitRead (.reg rs))) ∧
      (s.readable rs = true → s.readable rt = false → exec (mk rd rs rt) s = .fault (.uninitRead (.reg rt)))

/-- The rule of a one-source RRR instruction: Rt is written 000 and not read, and a word with another Rt is reserved or
ignores it, as UNARY_RT says (R100; spec/30_encoding.md R74, the spec's own decision D7; notes/assumptions/9.md). -/
def OneSourceRule (op : Mnemonic) (mk : Reg → Reg → Instr) (funct : Nat) (result : Word → Word → Prop) : Prop :=
  ∀ rd rs : Reg,
    assemble { op := op, args := [.reg rd, .reg rs] } = some (mk rd rs) ∧
    (encode (mk rd rs)).toNat = rs.toNat * 2 ^ 10 + rd.toNat * 2 ^ 4 + funct ∧
    (∀ (rt : Reg) (w : Word), rt ≠ 0 →
      w.toNat = rs.toNat * 2 ^ 10 + rt.toNat * 2 ^ 7 + rd.toNat * 2 ^ 4 + funct →
      decode .fault w = .reservedEncoding w ∧ decode .ignore w = .instr (mk rd rs)) ∧
    ∀ s : State,
      (s.readable rs = true → ∃ t, exec (mk rd rs) s = .next t ∧ WritesReg s t rd (result (s.reg rs)) []) ∧
      (s.readable rs = false → exec (mk rd rs) s = .fault (.uninitRead (.reg rs)))

/-- The rule of addi and subi: the destination is Rt, the immediate the signed value of its 7 bits
(spec/41_rri_immediate_and_beq.md R120). The accepted integers are the spec's own decision D20 (notes/assumptions/21.md). -/
def ImmediateRule (op : Mnemonic) (mk : Reg → Reg → Imm7 → Instr) (opcode : Nat)
    (result : Word → Int → Word → Prop) : Prop :=
  ∀ (rt rs : Reg) (imm : Imm7),
    (∀ n : Int, -64 ≤ n → n < 128 →
      assemble { op := op, args := [.reg rt, .reg rs, .imm n] } = some (mk rt rs (BitVec.ofInt 7 n))) ∧
    (encode (mk rt rs imm)).toNat = opcode * 2 ^ 13 + rs.toNat * 2 ^ 10 + rt.toNat * 2 ^ 7 + imm.toNat ∧
    ∀ s : State,
      (s.readable rs = true →
        ∃ t, exec (mk rt rs imm) s = .next t ∧ WritesReg s t rt (result (s.reg rs) imm.toInt) []) ∧
      (s.readable rs = false → exec (mk rt rs imm) s = .fault (.uninitRead (.reg rs)))

/-- The assembly form and the encoding of an RI instruction (spec/30_encoding.md R63, R79, R80). The accepted integers are the
spec's own decision D20 (notes/assumptions/21.md). -/
def RiForm (op : Mnemonic) (mk : Reg → Imm10 → Instr) (opcode : Nat) : Prop :=
  ∀ (rs : Reg) (imm : Imm10),
    (∀ n : Int, -512 ≤ n → n < 1024 →
      assemble { op := op, args := [.reg rs, .imm n] } = some (mk rs (BitVec.ofInt 10 n))) ∧
    (encode (mk rs imm)).toNat = opcode * 2 ^ 13 + rs.toNat * 2 ^ 10 + imm.toNat

/-- The one-source Funct values (spec/30_encoding.md R74). -/
def oneSourceFuncts : List (BitVec 4) :=
  [0b0001#4, 0b0011#4, 0b1000#4, 0b1001#4, 0b1010#4, 0b1011#4, 0b1100#4]

/-- A word R74 reserves under UNARY_RT = fault. -/
def IsReservedWord (w : Word) : Prop :=
  w.extractLsb' 13 3 = 0b000#3 ∧ w.extractLsb' 0 4 ∈ oneSourceFuncts ∧ w.extractLsb' 7 3 ≠ 0b000#3

/-- The mask of a row under UNARY_RT = ignore: the table's `mask_unary_rt_ignore` for the seven one-source rows
(spec/30_encoding.md R84). -/
def ignoreRtRow (r : OpRow) : OpRow := if r.mask = 0xE38F#16 then { r with mask := 0xE00F#16 } else r

/-- A result with the parameters of its next state replaced. -/
def withCfg (c : Config) : Result → Result
  | .next t => .next { t with cfg := c }
  | .fault f => .fault f
  | .refused r => .refused r

/-- What makes one instruction in one state independent of the open parameters (spec/92_eei_decisions.md, "Programs that do
not depend on the open parameters"): its sources written, a li immediate in 0..511, slt and sgt operands with equal top bits,
lw and sw immediates in 0..63, a loaded DMem word written. -/
def ParameterFree (i : Instr) (s : State) : Prop :=
  (∀ r ∈ sources i, (s.cell r).written = true) ∧
  match i with
  | .li _ imm => imm.toNat < 512
  | .slt _ rs rt => (s.reg rs).getLsbD 15 = (s.reg rt).getLsbD 15
  | .sgt _ rs rt => (s.reg rs).getLsbD 15 = (s.reg rt).getLsbD 15
  | .lw _ imm => imm.toNat < 64 ∧ (imm.toNat < 32 → s.dmem.get imm.toNat ≠ none)
  | .sw _ imm => imm.toNat < 64
  | _ => True

end Sys2Proof.Claims

open Sys2Proof Sys2Proof.Machine Sys2Proof.Claims

/-! ### The step, decoding and encoding -/

/-- R29 (with R28 and R41): fetch, decode, execute, in that order; that the fetch does not wrap and that an unloaded cell
faults are the spec's own decisions D9 and D14 (notes/assumptions/13.md, 6.md). When the word at the pc decodes to an
instruction, which is then a machine instruction, the step is `exec` of it. -/
def Obligations.StepRunsDecodedInstruction : Prop :=
  ∀ s : State,
    (64 ≤ s.pc.toNat → step s = .fault (.fetchOutOfRange s.pc)) ∧
    (s.pc.toNat < 64 → s.imem.get s.pc.toNat = none → step s = .fault (.fetchNotLoaded s.pc)) ∧
    ∀ w, s.pc.toNat < 64 → s.imem.get s.pc.toNat = some w →
      (∀ v, decode s.cfg.unaryRt w = .reservedEncoding v → step s = .fault (.reservedEncoding w)) ∧
      ∀ i, decode s.cfg.unaryRt w = .instr i → i.wellFormed = true ∧ step s = exec i s

/-- Words of spec/95_test_vectors.md 2.1 and 2.2 decode to the instructions listed there. Choices: that 0x04B1 is reserved or
runs as UNARY_RT says is the spec's own decision D7 (notes/assumptions/9.md), and that decodeTableWord reads a word under
UNARY_RT = fault, and answers none where the decoder refuses, is the model's (notes/assumptions/24.md). -/
def Obligations.DecodesWordsOfTheSpec : Prop :=
  decode .fault 0x0530 = .instr (.add 3 1 2) ∧
  decode .fault 0x0431 = .instr (.inc 3 1) ∧
  decode .fault 0x1234 = .instr (.and 3 4 4) ∧
  decode .fault 0x257F = .instr (.addi 2 1 0x7F) ∧
  decode .fault 0x650A = .instr (.beq 1 2 10) ∧
  decode .fault 0x9C3F = .instr (.lw 7 63) ∧
  decode .fault 0xB020 = .instr (.sw 4 32) ∧
  decode .fault 0xD403 = .instr (.jnz 5 3) ∧
  decode .fault 0xFD2C = .instr (.li 7 300) ∧
  decode .fault 0x04B1 = .reservedEncoding 0x04B1 ∧
  decode .ignore 0x04B1 = .instr (.inc 3 1) ∧
  decodeTableWord 16 0x7FFF = some (.beq 7 7 127) ∧
  decodeTableWord 16 0x04B1 = none

/-- R83 (derived in the spec from R61 to R63 and R73): `decode(enc(i)) = i` for every machine instruction, under either
UNARY_RT; a pseudo-instruction's word decodes to the machine instruction it is spelled with (R82, R140). -/
def Obligations.EncodedInstructionDecodesBack : Prop :=
  ∀ (u : UnaryRt) (i : Instr),
    decode u (encode i) = .instr i.expand ∧ (i.wellFormed = true → i.expand = i)

/-- R83 (derived in the spec from R61 to R63 and R73; R74 is its decision D7): `enc(decode(w)) = w` for every word w that is
not reserved by R74, under either UNARY_RT. -/
def Obligations.DecodedWordEncodesBack : Prop :=
  ∀ (u : UnaryRt) (w : Word), ¬ IsReservedWord w → ∃ i, decode u w = .instr i ∧ encode i = w

/-- R73, R82 (derived in the spec from R73 and R140): the decoder never answers a pseudo-instruction. -/
def Obligations.DecoderAnswersMachineInstructions : Prop :=
  ∀ (u : UnaryRt) (w : Word) (i : Instr), decode u w = .instr i → i.wellFormed = true

/-- R73, R74 (the spec's own decision D7; notes/assumptions/9.md): a word is refused exactly when it is one of the reserved
words and UNARY_RT = fault, and the verdict carries the word. -/
def Obligations.OnlyReservedWordsAreRefused : Prop :=
  ∀ (u : UnaryRt) (w v : Word), decode u w = .reservedEncoding v ↔ u = .fault ∧ v = w ∧ IsReservedWord w

/-- R84 (with R74, the spec's own decision D7; notes/assumptions/9.md): under UNARY_RT = fault every word matches exactly one
of the 23 machine rows, but for the reserved words, which match none; under ignore every word matches exactly one; and the row
a word matches is that of the instruction it decodes to. -/
def Obligations.TableRowsPartitionTheWords : Prop :=
  ∀ w : Word,
    (IsReservedWord w → ∀ m ∈ machineMnemonics, (opRow m).matchesWord w = false) ∧
    (¬ IsReservedWord w → ∃! m, m ∈ machineMnemonics ∧ (opRow m).matchesWord w = true) ∧
    (∃! m, m ∈ machineMnemonics ∧ (ignoreRtRow (opRow m)).matchesWord w = true) ∧
    (∀ i, decode .fault w = .instr i → (opRow (disassemble i).op).matchesWord w = true) ∧
    ∀ i, decode .ignore w = .instr i → (ignoreRtRow (opRow (disassemble i).op)).matchesWord w = true

/-- R80 and the ranges of R79 (the spec's own decision D20; notes/assumptions/21.md): the operand order of disassembly is the
one assembly reads back, for every machine instruction, for not and mov, and for nop and jmp with the assembler's register 0
(D22). -/
def Obligations.AssemblyLineReadsBack : Prop :=
  ∀ i : Instr,
    (i.wellFormed = true ∨ (∃ rd rs, i = .not rd rs ∨ i = .mov rd rs) ∨ i = .nop 0 ∨ ∃ imm, i = .jmp 0 imm) →
    assemble (disassemble i) = some i

/-- R79: the integers an N-bit field accepts are those with −2^(N−1) <= n < 2^N, and n mod 2^N is stored, for both field
widths: the spec's own decision D20 (notes/assumptions/21.md). -/
def Obligations.AssemblerImmediateRange : Prop :=
  ∀ N, N = 7 ∨ N = 10 → ∀ n : Int,
    ((immField N n).isSome = true ↔ -(2 ^ (N - 1) : Int) ≤ n ∧ n < 2 ^ N) ∧
    ∀ v, immField N n = some v → (v.toNat : Int) = n % 2 ^ N

/-! ### Values -/

/-- R10: sign extension keeps the low N bits and copies bit N−1 into bits 15..N, and has the value the rule gives; zero
extension keeps the value. The spec marks the definition as its own (G1; notes/assumptions/22.md). -/
def Obligations.ExtensionPrimitives : Prop :=
  ∀ (N : Nat) (v : BitVec N), 0 < N → N ≤ 16 →
    (∀ i, i < N → (sext v).getLsbD i = v.getLsbD i) ∧
    (∀ i, N ≤ i → i < 16 → (sext v).getLsbD i = v.getLsbD (N - 1)) ∧
    (sext v).toNat = (if v.toNat < 2 ^ (N - 1) then v.toNat else v.toNat + 65536 - 2 ^ N) ∧
    (zext v).toNat = v.toNat

/-- R118: the value add, sub, inc, dec and mul write is the low 16 bits of the exact result, and those are the same whether
the operands are read as unsigned or as two's-complement signed numbers. That results wrap is the spec's own decision D3, and
that mul keeps the low half its decision D4 (notes/assumptions/16.md, 14.md). -/
def Obligations.ArithmeticNeedsNoSignedness : Prop :=
  ∀ (rd rs rt : Reg) (s t : State),
    (exec (.add rd rs rt) s = .next t →
      t.reg rd = BitVec.ofInt 16 ((s.reg rs).toNat + (s.reg rt).toNat) ∧
      t.reg rd = BitVec.ofInt 16 ((s.reg rs).toInt + (s.reg rt).toInt)) ∧
    (exec (.sub rd rs rt) s = .next t →
      t.reg rd = BitVec.ofInt 16 (((s.reg rs).toNat : Int) - (s.reg rt).toNat) ∧
      t.reg rd = BitVec.ofInt 16 ((s.reg rs).toInt - (s.reg rt).toInt)) ∧
    (exec (.inc rd rs) s = .next t →
      t.reg rd = BitVec.ofInt 16 ((s.reg rs).toNat + 1) ∧ t.reg rd = BitVec.ofInt 16 ((s.reg rs).toInt + 1)) ∧
    (exec (.dec rd rs) s = .next t →
      t.reg rd = BitVec.ofInt 16 (((s.reg rs).toNat : Int) - 1) ∧ t.reg rd = BitVec.ofInt 16 ((s.reg rs).toInt - 1)) ∧
    (exec (.mul rd rs rt) s = .next t →
      t.reg rd = BitVec.ofInt 16 ((s.reg rs).toNat * (s.reg rt).toNat) ∧
      t.reg rd = BitVec.ofInt 16 ((s.reg rs).toInt * (s.reg rt).toInt))

/-! ### The RRR instructions -/

/-- R101, R103: add and sub write the sum and the difference Rs − Rt, modulo 65536. That they wrap is the spec's own decision
D3 (notes/assumptions/16.md). -/
def Obligations.AddSubRules : Prop :=
  TwoSourceRule .add .add 0b0000 (fun _ a b r => (r.toNat : Int) = (a.toNat + b.toNat) % 65536) ∧
  TwoSourceRule .sub .sub 0b0010 (fun _ a b r => (r.toNat : Int) = ((a.toNat : Int) - b.toNat) % 65536)

/-- mul writes the low 16 bits of the product: the spec's own decision D4 (notes/assumptions/14.md). -/
def Obligations.MulRule : Prop :=
  TwoSourceRule .mul .mul 0b1101 (fun _ a b r => r.toNat = a.toNat * b.toNat % 65536)

/-- R102, R104: inc and dec. That they wrap is the spec's own decision D3, and what a word with another Rt field does its
decision D7 (notes/assumptions/16.md, 9.md). -/
def Obligations.IncDecRules : Prop :=
  OneSourceRule .inc .inc 0b0001 (fun a r => r.toNat = (a.toNat + 1) % 65536) ∧
  OneSourceRule .dec .dec 0b0011 (fun a r => (r.toNat : Int) = ((a.toNat : Int) - 1) % 65536)

/-- R105, R107: and and nand, bit by bit. -/
def Obligations.AndNandRules : Prop :=
  TwoSourceRule .and .and 0b0100 (fun _ a b r => ∀ i, i < 16 → r.getLsbD i = (a.getLsbD i && b.getLsbD i)) ∧
  TwoSourceRule .nand .nand 0b0110 (fun _ a b r => ∀ i, i < 16 → r.getLsbD i = !(a.getLsbD i && b.getLsbD i))

/-- or and xor, bit by bit: the spec recovers both operators from the mnemonics and the ALU list (R106, R108, conflict C7;
notes/assumptions/26.md). -/
def Obligations.OrXorRules : Prop :=
  TwoSourceRule .or .or 0b0101 (fun _ a b r => ∀ i, i < 16 → r.getLsbD i = (a.getLsbD i || b.getLsbD i)) ∧
  TwoSourceRule .xor .xor 0b0111 (fun _ a b r => ∀ i, i < 16 → r.getLsbD i = (a.getLsbD i != b.getLsbD i))

/-- R109, R111, R113: shfl, sll and sra, by their result bits; sra is the floor of half the signed value. The truncation of
a left shift is the spec's own decision D3, what a word with another Rt field does its decision D7, and that sll shifts by two
its resolution of the conflict C1 (notes/assumptions/16.md, 9.md, 27.md). -/
def Obligations.ShiftRules : Prop :=
  OneSourceRule .shfl .shfl 0b1000 (fun a r =>
    r.getLsbD 0 = false ∧ ∀ i, i < 15 → r.getLsbD (i + 1) = a.getLsbD i) ∧
  OneSourceRule .sll .sll 0b1010 (fun a r =>
    r.getLsbD 0 = false ∧ r.getLsbD 1 = false ∧ ∀ i, i < 14 → r.getLsbD (i + 2) = a.getLsbD i) ∧
  OneSourceRule .sra .sra 0b1100 (fun a r =>
    r.getLsbD 15 = a.getLsbD 15 ∧ r.getLsbD 14 = a.getLsbD 15 ∧ (∀ i, i < 14 → r.getLsbD i = a.getLsbD (i + 1)) ∧
    r.toInt = a.toInt / 2)

/-- shfr and srr, by their result bits: the zero fill is the spec's own decision D6, what a word with another Rt field
does its decision D7, and that srr shifts by two its resolution of the conflict C1 (notes/assumptions/15.md, 9.md, 27.md). -/
def Obligations.LogicalRightShiftRules : Prop :=
  OneSourceRule .shfr .shfr 0b1001 (fun a r =>
    r.getLsbD 15 = false ∧ ∀ i, i < 15 → r.getLsbD i = a.getLsbD (i + 1)) ∧
  OneSourceRule .srr .srr 0b1011 (fun a r =>
    r.getLsbD 15 = false ∧ r.getLsbD 14 = false ∧ ∀ i, i < 14 → r.getLsbD i = a.getLsbD (i + 2))

/-- R115, R116: slt and sgt write 0x0001 or 0x0000 by the signed order under CMP_SIGNED = true, whose default is true, and by
the unsigned order under false. The parameter and its default are the spec's own decision D5 (notes/assumptions/7.md). -/
def Obligations.CompareRules : Prop :=
  Config.specDefault.cmpSigned = true ∧
  TwoSourceRule .slt .slt 0b1110 (fun c a b r =>
    (c.cmpSigned = true → r = if a.toInt < b.toInt then 1 else 0) ∧
    (c.cmpSigned = false → r = if a.toNat < b.toNat then 1 else 0)) ∧
  TwoSourceRule .sgt .sgt 0b1111 (fun c a b r =>
    (c.cmpSigned = true → r = if a.toInt > b.toInt then 1 else 0) ∧
    (c.cmpSigned = false → r = if a.toNat > b.toNat then 1 else 0))

/-- R115: the two readings of slt and of sgt agree when the operands' top bits are equal; when these differ, so do the two
results (the spec's own decision D5; notes/assumptions/7.md). -/
def Obligations.CompareSettingsDifferByTopBits : Prop :=
  ∀ (i : Instr) (rd rs rt : Reg) (s t u : State), i = .slt rd rs rt ∨ i = .sgt rd rs rt →
    s.cfg.cmpSigned = true → exec i s = .next t →
    exec i { s with cfg := { s.cfg with cmpSigned := false } } = .next u →
    (t.reg rd = u.reg rd ↔ (s.reg rs).getLsbD 15 = (s.reg rt).getLsbD 15)

/-- R116 (the comparison itself is the spec's own decision D5): `sgt Rd, Rs, Rt` always equals `slt Rd, Rt, Rs` (where both
registers can be read). -/
def Obligations.SgtIsSltSwapped : Prop :=
  ∀ (rd rs rt : Reg) (s : State), s.readable rs = true → s.readable rt = true →
    ∃ t, exec (.sgt rd rs rt) s = .next t ∧ exec (.slt rd rt rs) s = .next t

/-! ### The RRI instructions -/

/-- R121, R122: addi and subi add and subtract the sign-extended immediate, modulo 65536. That they wrap is the spec's own
decision D3, and the integers an assembler accepts its decision D20 (notes/assumptions/16.md, 21.md). -/
def Obligations.AddiSubiRules : Prop :=
  ImmediateRule .addi .addi 0b001 (fun a n r => (r.toNat : Int) = (a.toNat + n) % 65536) ∧
  ImmediateRule .subi .subi 0b010 (fun a n r => (r.toNat : Int) = (a.toNat - n) % 65536)

/-- R123: beq. That a fetch at 64 or more faults is the spec's own decision D9, and the integers an assembler accepts its
decision D20 (notes/assumptions/13.md, 21.md). -/
def Obligations.BeqRule : Prop :=
  ∀ (rs rt : Reg) (imm : Imm7),
    (∀ n : Int, -64 ≤ n → n < 128 →
      assemble { op := .beq, args := [.reg rs, .reg rt, .imm n] } = some (.beq rs rt (BitVec.ofInt 7 n))) ∧
    (encode (.beq rs rt imm)).toNat = 0b011 * 2 ^ 13 + rs.toNat * 2 ^ 10 + rt.toNat * 2 ^ 7 + imm.toNat ∧
    ∀ s : State,
      (s.readable rs = true → s.readable rt = true →
        ∃ t, exec (.beq rs rt imm) s = .next t ∧ ChangesOnlyPc s t ∧
          (s.reg rs = s.reg rt →
            t.pc.toNat = imm.toNat ∧ (64 ≤ imm.toNat → step t = .fault (.fetchOutOfRange t.pc)) ∧
            (s.pc.toNat = imm.toNat → t = s)) ∧
          (s.reg rs ≠ s.reg rt →
            t.pc = s.pc + 1 ∧ (s.pc.toNat = 63 → step t = .fault (.fetchOutOfRange 64)))) ∧
      (s.readable rs = false → exec (.beq rs rt imm) s = .fault (.uninitRead (.reg rs))) ∧
      (s.readable rs = true → s.readable rt = false → exec (.beq rs rt imm) s = .fault (.uninitRead (.reg rt)))

/-! ### The RI instructions -/

/-- R43 (the spec's own decision D10; notes/assumptions/10.md): the DAD is the identity on the immediates 0..63 under every
setting of its parameter; under the default every other immediate makes lw, and a sw whose source can be read, raise
DataAddressUndecoded with the sign-extended immediate. -/
def Obligations.DataAddressDecoder : Prop :=
  ∀ (rs : Reg) (imm : Imm10) (s : State),
    (imm.toNat < 64 → ∃ a, dad s.cfg (sext imm) = some a ∧ a.toNat = imm.toNat) ∧
    (64 ≤ imm.toNat → s.cfg.dadExtra = [] →
      exec (.lw rs imm) s = .fault (.dataAddressUndecoded (imm.signExtend 16)) ∧
      (s.readable rs = true → exec (.sw rs imm) s = .fault (.dataAddressUndecoded (imm.signExtend 16))))

/-- R43, R6 (the spec's own decision D10; notes/assumptions/10.md): outside 0..63 the DAD is the parameter's table: a value it
lists is decoded to the address listed, any other value is not decoded. -/
def Obligations.DataAddressDecoderParameter : Prop :=
  ∀ (c : Config) (v : Word) (a : DAddr), c.wellFormed = true → 64 ≤ v.toNat →
    (dad c v = some a ↔ (v, a) ∈ c.dadExtra) ∧ (dad c v = none ↔ ∀ b, (v, b) ∉ c.dadExtra)

/-- R131: lw. From DMem it loads the word last stored; where nothing was stored it faults under UNINIT = fault. From the I/O
region it loads a draw of IO_ORACLE and records the event. The undecoded address is the spec's own decision D10, the draw and
its event D11, the unwritten cell D12, the integers an assembler accepts D20 (notes/assumptions/10.md, 11.md, 4.md, 21.md). -/
def Obligations.LwRule : Prop :=
  RiForm .lw .lw 0b100 ∧
  ∀ (rs : Reg) (imm : Imm10) (s : State),
    (dad s.cfg (sext imm) = none → exec (.lw rs imm) s = .fault (.dataAddressUndecoded (sext imm))) ∧
    ∀ a, dad s.cfg (sext imm) = some a →
      (a.toNat < 32 → ∀ v, s.dmem.get a.toNat = some v →
        ∃ t, exec (.lw rs imm) s = .next t ∧ WritesReg s t rs (fun r => r = v) []) ∧
      (a.toNat < 32 → s.dmem.get a.toNat = none → s.cfg.uninit = .fault →
        exec (.lw rs imm) s = .fault (.uninitRead (.dmem a))) ∧
      (32 ≤ a.toNat →
        ∃ t, exec (.lw rs imm) s = .next t ∧
          WritesReg s t rs (fun r => r = Config.ioOracle s.io a) [.read a (Config.ioOracle s.io a)])

/-- Under UNINIT = arbitrary an lw of a DMem cell that nothing has written loads the cell's power-up value, one fixed value
the model does not know: the spec's own decision D12 (notes/assumptions/4.md). -/
def Obligations.LwOfAnUnwrittenCell : Prop :=
  ∀ (rs : Reg) (imm : Imm10) (s : State) (a : DAddr),
    dad s.cfg (sext imm) = some a → a.toNat < 32 → s.dmem.get a.toNat = none → s.cfg.uninit = .arbitrary →
    ∃ t, exec (.lw rs imm) s = .next t ∧ WritesReg s t rs (fun r => r = Config.dmemPowerUp a) []

/-- R132: sw. To DMem it stores the whole word at the data address and nowhere else; to the I/O region it records the event
and stores nothing. The register is checked before the address (R153). The undecoded address is the spec's own decision D10,
the I/O event D11, the integers an assembler accepts D20, the order of the checks D16 (notes/assumptions/10.md, 11.md, 21.md,
31.md). -/
def Obligations.SwRule : Prop :=
  RiForm .sw .sw 0b101 ∧
  ∀ (rs : Reg) (imm : Imm10) (s : State),
    (s.readable rs = false → exec (.sw rs imm) s = .fault (.uninitRead (.reg rs))) ∧
    (s.readable rs = true →
      (dad s.cfg (sext imm) = none → exec (.sw rs imm) s = .fault (.dataAddressUndecoded (sext imm))) ∧
      ∀ a, dad s.cfg (sext imm) = some a →
        ∃ t, exec (.sw rs imm) s = .next t ∧
          (∀ q, t.cell q = s.cell q) ∧ t.pc = s.pc + 1 ∧ t.cfg = s.cfg ∧ (∀ p, t.imem.get p = s.imem.get p) ∧
          (a.toNat < 32 →
            t.dmem.get a.toNat = some (s.reg rs) ∧ (∀ b, b ≠ a.toNat → t.dmem.get b = s.dmem.get b) ∧ t.io = s.io) ∧
          (32 ≤ a.toNat →
            (∀ b, t.dmem.get b = s.dmem.get b) ∧ t.io = s.io ++ [.write a (s.reg rs)]))

/-- R133: jnz. That a fetch at 64 or more faults is the spec's own decision D9, and the integers an assembler accepts its
decision D20 (notes/assumptions/13.md, 21.md). -/
def Obligations.JnzRule : Prop :=
  RiForm .jnz .jnz 0b110 ∧
  ∀ (rs : Reg) (imm : Imm10) (s : State),
    (s.readable rs = true →
      ∃ t, exec (.jnz rs imm) s = .next t ∧ ChangesOnlyPc s t ∧
        (s.reg rs ≠ 0 →
          t.pc.toNat = imm.toNat ∧ (64 ≤ imm.toNat → step t = .fault (.fetchOutOfRange t.pc)) ∧
          (s.pc.toNat = imm.toNat → t = s)) ∧
        (s.reg rs = 0 → t.pc = s.pc + 1)) ∧
    (s.readable rs = false → exec (.jnz rs imm) s = .fault (.uninitRead (.reg rs)))

/-- R134: li reads nothing, cannot fault, and writes the immediate widened as LI_EXT says. LI_EXT is the spec's own
decision D8, and the integers an assembler accepts its decision D20 (notes/assumptions/8.md, 21.md). -/
def Obligations.LiRule : Prop :=
  RiForm .li .li 0b111 ∧
  ∀ (rs : Reg) (imm : Imm10) (s : State),
    ∃ t, exec (.li rs imm) s = .next t ∧
      WritesReg s t rs (fun r =>
        (s.cfg.liExt = .sign → r = imm.signExtend 16) ∧ (s.cfg.liExt = .zero → r.toNat = imm.toNat)) []

/-! ### The pseudo-instructions -/

/-- R141, R142: not writes the complement of Rs, mov a copy of it. -/
def Obligations.NotMovRules : Prop :=
  ∀ rd rs : Reg,
    assemble { op := .not, args := [.reg rd, .reg rs] } = some (.not rd rs) ∧
    assemble { op := .mov, args := [.reg rd, .reg rs] } = some (.mov rd rs) ∧
    (encode (.not rd rs)).toNat = rs.toNat * 2 ^ 10 + rs.toNat * 2 ^ 7 + rd.toNat * 2 ^ 4 + 6 ∧
    (encode (.mov rd rs)).toNat = rs.toNat * 2 ^ 10 + rs.toNat * 2 ^ 7 + rd.toNat * 2 ^ 4 + 4 ∧
    (∀ s : State, exec (.not rd rs) s = exec (.nand rd rs rs) s ∧ exec (.mov rd rs) s = exec (.and rd rs rs) s) ∧
    ∀ s : State,
      (s.readable rs = true →
        (∃ t, exec (.not rd rs) s = .next t ∧
          WritesReg s t rd (fun r => ∀ i, i < 16 → r.getLsbD i = !(s.reg rs).getLsbD i) []) ∧
        ∃ t, exec (.mov rd rs) s = .next t ∧ WritesReg s t rd (fun r => r = s.reg rs) []) ∧
      (s.readable rs = false →
        exec (.not rd rs) s = .fault (.uninitRead (.reg rs)) ∧ exec (.mov rd rs) s = .fault (.uninitRead (.reg rs)))

/-- R143: nop leaves every register value as it was and adds 1 to the pc, whatever register the assembler chose; the spec's
assembler chooses register 0, giving 0x2000: the spec's own decision D22 (notes/assumptions/20.md). -/
def Obligations.NopRule : Prop :=
  assemble { op := .nop, args := [] } = some (.nop 0) ∧ encode (.nop 0) = 0x2000 ∧
  ∀ rs : Reg,
    (encode (.nop rs)).toNat = 0b001 * 2 ^ 13 + rs.toNat * 2 ^ 10 + rs.toNat * 2 ^ 7 ∧
    ∀ s : State,
      exec (.nop rs) s = exec (.addi rs rs 0) s ∧
      (s.readable rs = true → ∃ t, exec (.nop rs) s = .next t ∧ WritesReg s t rs (fun r => r = s.reg rs) []) ∧
      (s.readable rs = false → exec (.nop rs) s = .fault (.uninitRead (.reg rs)))

/-- R144: jmp goes to its absolute target, whatever the register the assembler chose holds; the spec's assembler chooses
register 0: the spec's own decision D22. That a fetch at 64 or more faults is its decision D9, and the integers an assembler
accepts D20 (notes/assumptions/20.md, 13.md, 21.md). -/
def Obligations.JmpRule : Prop :=
  (∀ n : Int, -64 ≤ n → n < 128 →
    assemble { op := .jmp, args := [.imm n] } = some (.jmp 0 (BitVec.ofInt 7 n))) ∧
  ∀ (rs : Reg) (imm : Imm7),
    (encode (.jmp rs imm)).toNat = 0b011 * 2 ^ 13 + rs.toNat * 2 ^ 10 + rs.toNat * 2 ^ 7 + imm.toNat ∧
    ∀ s : State,
      exec (.jmp rs imm) s = exec (.beq rs rs imm) s ∧
      (s.readable rs = true →
        ∃ t, exec (.jmp rs imm) s = .next t ∧ ChangesOnlyPc s t ∧ t.pc.toNat = imm.toNat ∧
          (64 ≤ imm.toNat → step t = .fault (.fetchOutOfRange t.pc))) ∧
      (s.readable rs = false → exec (.jmp rs imm) s = .fault (.uninitRead (.reg rs)))

/-- R140: every pseudo-instruction has the word and the effect of the machine instruction it is spelled with. -/
def Obligations.PseudoInstructionsAreTheirExpansions : Prop :=
  ∀ i : Instr, i.expand.wellFormed = true ∧ encode i.expand = encode i ∧ ∀ s : State, exec i.expand s = exec i s

/-! ### Faults -/

/-- R153 (the spec's own decision D16; notes/assumptions/31.md): the order of the checks inside one step, and that a step none
of whose checks fails has a next state. -/
def Obligations.FaultsInTheOrderOfChecks : Prop :=
  ∀ s : State,
    (64 ≤ s.pc.toNat → step s = .fault (.fetchOutOfRange s.pc)) ∧
    (s.pc.toNat < 64 → s.imem.get s.pc.toNat = none → step s = .fault (.fetchNotLoaded s.pc)) ∧
    ∀ w, s.pc.toNat < 64 → s.imem.get s.pc.toNat = some w →
      (s.cfg.unaryRt = .fault ∧ IsReservedWord w → step s = .fault (.reservedEncoding w)) ∧
      ∀ i, decode s.cfg.unaryRt w = .instr i →
        (∀ f, firstFault i s = some f → step s = .fault f) ∧ (firstFault i s = none → ∃ t, step s = .next t)

/-- R29 (4), R153 (the spec's own decision D16; notes/assumptions/31.md): an instruction none of whose checks fails has a next
state, for every instruction; otherwise it raises the first fault in the order of R153. -/
def Obligations.EveryInstructionCompletesOrFaultsInOrder : Prop :=
  ∀ (i : Instr) (s : State),
    (firstFault i s = none → ∃ t, exec i s = .next t) ∧ ∀ f, firstFault i s = some f → exec i s = .fault f

/-- R151 (the spec's own decision D16; notes/assumptions/19.md): each fault is raised only in the situation the table gives
it, with the information the table gives it. -/
def Obligations.FaultsOnlyAsTheTableLists : Prop :=
  ∀ (s : State) (f : Fault), step s = .fault f →
    match f with
    | .fetchOutOfRange p => p = s.pc ∧ 64 ≤ s.pc.toNat
    | .fetchNotLoaded p => p = s.pc ∧ s.pc.toNat < 64 ∧ s.imem.get s.pc.toNat = none
    | .reservedEncoding w =>
      s.cfg.unaryRt = .fault ∧ s.pc.toNat < 64 ∧ s.imem.get s.pc.toNat = some w ∧ IsReservedWord w
    | .uninitRead (.reg r) =>
      s.cfg.uninit = .fault ∧ (s.cell r).written = false ∧ ∃ i, s.current = some i ∧ r ∈ sources i
    | .uninitRead (.dmem a) =>
      s.cfg.uninit = .fault ∧ a.toNat < 32 ∧ s.dmem.get a.toNat = none ∧
      ∃ rs imm, s.current = some (.lw rs imm) ∧ dad s.cfg (sext imm) = some a
    | .dataAddressUndecoded v =>
      dad s.cfg v = none ∧ ∃ rs imm, v = sext imm ∧ (s.current = some (.lw rs imm) ∨ s.current = some (.sw rs imm))

/-- R151, last column (the spec's own decision D16; notes/assumptions/19.md): with UNARY_RT = ignore, UNINIT = arbitrary, a
total DAD and a loaded cell at a pc below 64, no fault is left: the step has a next state. -/
def Obligations.TotalParametersRemoveFaults : Prop :=
  ∀ (s : State) (w : Word), s.cfg.unaryRt = .ignore → s.cfg.uninit = .arbitrary →
    (∀ v, dad s.cfg v ≠ none) → s.pc.toNat < 64 → s.imem.get s.pc.toNat = some w →
    ∃ t, step s = .next t

/-- R37: under UNINIT = fault a register can be read exactly when something has written it, and under UNINIT = arbitrary
always; a write makes it readable, with the value written, whatever it held. The parameter is the spec's own decision D12
(notes/assumptions/2.md). -/
def Obligations.UninitDecidesReadability : Prop :=
  ∀ (s : State) (r : Reg),
    (s.cfg.uninit = .fault → (s.readable r = true ↔ (s.cell r).written = true)) ∧
    (s.cfg.uninit = .arbitrary → s.readable r = true) ∧
    ∀ v, (s.setReg r v).readable r = true ∧ (s.setReg r v).reg r = v

/-- R37 (the spec's own decision D12; notes/assumptions/4.md): under UNINIT = arbitrary a register or a DMem word that
nothing has written never stops a run, of any length, from any state. That State.reset has UNINIT = arbitrary is the model's
own choice (notes/assumptions/2.md): D12's default is fault. -/
def Obligations.UnwrittenCellsNeverStopARunUnderArbitrary : Prop :=
  State.reset.cfg.uninit = .arbitrary ∧
  ∀ (k : Nat) (s : State) (c : CellName), s.cfg.uninit = .arbitrary → run k s ≠ .fault (.uninitRead c)

/-- R12 (the spec's own decision D16; notes/assumptions/19.md): a step has exactly one of two outcomes, the next state or a
fault: the machine never refuses. -/
def Obligations.StepIsNextOrFault : Prop :=
  ∀ s : State, (∃ t, step s = .next t) ∨ ∃ f, step s = .fault f

/-! ### Frames and invariants -/

/-- R23, R100, R120, R130 (no hardwired register: the spec's own decision D2; notes/assumptions/17.md): an instruction changes
no register but its destination, and that one then holds a value. -/
def Obligations.OnlyTheDestinationChanges : Prop :=
  ∀ (i : Instr) (s t : State), exec i s = .next t →
    (∀ q, destination i ≠ some q → t.cell q = s.cell q) ∧
    ∀ r, destination i = some r → (t.cell r).written = true

/-- R44, R47, R56 (R56 derived in the spec from R40, R41 and R43): an instruction changes no DMem word but the one it stores
to, no IMem word and no parameter. -/
def Obligations.OnlyTheStoredWordChanges : Prop :=
  ∀ (i : Instr) (s t : State), exec i s = .next t →
    (∀ a, storedAddress i s = some a → ∀ b, b ≠ a.toNat → t.dmem.get b = s.dmem.get b) ∧
    (storedAddress i s = none → ∀ b, t.dmem.get b = s.dmem.get b) ∧
    (∀ p, t.imem.get p = s.imem.get p) ∧ t.cfg = s.cfg

/-- R58 (derived in the spec from R45, its decision D11; notes/assumptions/11.md): an lw or sw to an I/O address appends
exactly one event, the one the rule gives; every other instruction appends none, and nothing recorded is lost. -/
def Obligations.IoEventsInProgramOrder : Prop :=
  ∀ (i : Instr) (s t : State), exec i s = .next t → t.io = s.io ++ ioEvents i s

/-- R27 (derived in the spec from R25; notes/assumptions/30.md): every instruction other than a taken beq (or jmp) or a taken
jnz ends with `pc <- pc + 1`; those end at their absolute target. -/
def Obligations.SequentialAdvance : Prop :=
  ∀ (i : Instr) (s t : State), exec i s = .next t → t.pc = nextPc i s

/-- R33, R39, R56 (R56 derived in the spec; the parameters as a field: notes/assumptions/1.md): the program and the parameters
are the same at every point of a run. -/
def Obligations.ProgramIsConstantOverRuns : Prop :=
  ∀ (k : Nat) (s t : State), run k s = .next t → t.imem = s.imem ∧ t.cfg = s.cfg

/-- R37 (the spec's own decision D12; notes/assumptions/28.md): what has a value keeps having one: over a run no register and
no DMem word goes back to "no value". -/
def Obligations.WrittenCellsStayWritten : Prop :=
  ∀ (k : Nat) (s t : State), run k s = .next t →
    (∀ r, (s.cell r).written = true → (t.cell r).written = true) ∧
    ∀ a, s.dmem.get a ≠ none → t.dmem.get a ≠ none

/-- R33, R34, R35, R69, R71 (the canonical form and the pc's bound are the model's; notes/assumptions/5.md, 13.md): every step
keeps both memories in canonical form within their sizes, the history within the I/O region, the pc within what an instruction
can assign, and the parameters legal. -/
def Obligations.StepKeepsStateWellFormed : Prop :=
  ∀ s t : State, s.wf → step s = .next t → t.wf

/-- The state after reset (the model's choice: notes/assumptions/2.md, 3.md) is well formed. -/
def Obligations.ResetIsWellFormed : Prop := State.reset.wf

/-- Every valid launch gives a well-formed state. -/
def Obligations.LaunchIsWellFormed : Prop :=
  ∀ (c : Config) (regs : Vector Word 8) (program : List Word) (s : State),
    launch c regs program = some s → s.wf

/-! ### Memory over time -/

/-- R44: a word stored by sw is what an lw from the same DMem address loads next. -/
def Obligations.StoreThenLoadReturnsTheWord : Prop :=
  ∀ (rs rd : Reg) (imm : Imm10) (s : State) (a : DAddr),
    s.readable rs = true → dad s.cfg (sext imm) = some a → a.toNat < 32 →
    ∃ t u, exec (.sw rs imm) s = .next t ∧ exec (.lw rd imm) t = .next u ∧ u.reg rd = s.reg rs ∧ u.io = s.io

/-- R53 (the spec's own decision D19; notes/assumptions/18.md): a DMem word keeps the value last stored over every run in
which no executed instruction stores to its address, and an lw from that address then loads it. -/
def Obligations.LoadSeesTheLatestStore : Prop :=
  ∀ (k : Nat) (s t : State) (a : DAddr) (v : Word),
    s.dmem.get a.toNat = some v → run k s = .next t →
    (∀ j, j < k → ∀ u : State, run j s = .next u →
      ∀ i, u.current = some i → storedAddress i u ≠ some a) →
    t.dmem.get a.toNat = some v ∧
    ∀ (rd : Reg) (imm : Imm10), a.toNat < 32 → dad t.cfg (sext imm) = some a →
      ∃ u, exec (.lw rd imm) t = .next u ∧ u.reg rd = v ∧ u.io = t.io

/-! ### Reset, launch, the end of a run -/

/-- R38, R171, R173: the launch state of valid parameters and a PROGRAM of at most 64 words; RESET_PC outside 0..63 and longer
programs are not valid launches. The spec's own decisions D11 to D14 (notes/assumptions/6.md, 11.md, 12.md, 28.md). -/
def Obligations.LaunchState : Prop :=
  Config.specDefault.resetPc = 0 ∧
  ∀ (c : Config) (regs : Vector Word 8) (program : List Word),
    (64 ≤ c.resetPc.toNat ∨ 64 < program.length → launch c regs program = none) ∧
    (c.resetPc.toNat < 64 → c.dadExtra = [] → program.length ≤ 64 → ∃ s, launch c regs program = some s) ∧
    ∀ s, launch c regs program = some s →
      s.pc = c.resetPc ∧ s.cfg = c ∧ s.io = [] ∧
      (∀ r, (s.cell r).written = false) ∧ (∀ a, s.dmem.get a = none) ∧
      ∀ p, s.imem.get p = program[p]?

/-- The model's choice (notes/assumptions/2.md, 3.md, 6.md): State.reset is the launch with nothing loaded, the spec's default
parameters but for UNINIT = arbitrary, and zero in every register. -/
def Obligations.ResetIsTheLaunchOfNothing : Prop :=
  launch { Config.specDefault with uninit := .arbitrary } (Vector.replicate 8 0) [] = some State.reset

/-- The model's choice (notes/assumptions/2.md and 3.md): right after reset every register can be read and reads zero; the
spec gives no value. -/
def Obligations.ResetRegistersReadZero : Prop :=
  ∀ r, State.reset.readable r = true ∧ State.reset.reg r = 0

/-- R163 (the spec's own decision D15; notes/assumptions/23.md): a state is final exactly when the instruction at the pc is a
taken beq, or a taken jnz, whose target is the pc. -/
def Obligations.FinalExactlyAtSelfBranch : Prop :=
  ∀ s : State, s.final ↔
    (∃ rs rt imm, s.current = some (.beq rs rt imm) ∧ s.readable rs = true ∧ s.readable rt = true ∧
      s.reg rs = s.reg rt ∧ imm.toNat = s.pc.toNat) ∨
    ∃ rs imm, s.current = some (.jnz rs imm) ∧ s.readable rs = true ∧ s.reg rs ≠ 0 ∧ imm.toNat = s.pc.toNat

/-- R163, R174 (the spec's own decision D15; notes/assumptions/23.md): a run that ends successfully does so at a beq or jnz of
the program it was launched with whose target is its own address and which is taken; from some step on it stays there, with
the program and the parameters it started with, and it never faults. -/
def Obligations.SuccessfulRunsEndInASelfBranchOfTheProgram : Prop :=
  ∀ s : State, s.endsSuccessfully →
    ¬ s.runFaults ∧
    ∃ k t w, (∀ n, k ≤ n → run n s = .next t) ∧ t.imem = s.imem ∧ t.cfg = s.cfg ∧
      t.pc.toNat < 64 ∧ s.imem.get t.pc.toNat = some w ∧
      ((∃ rs rt imm, decode s.cfg.unaryRt w = .instr (.beq rs rt imm) ∧ imm.toNat = t.pc.toNat ∧
          t.readable rs = true ∧ t.readable rt = true ∧ t.reg rs = t.reg rt) ∨
        ∃ rs imm, decode s.cfg.unaryRt w = .instr (.jnz rs imm) ∧ imm.toNat = t.pc.toNat ∧
          t.readable rs = true ∧ t.reg rs ≠ 0)

/-- spec/92_eei_decisions.md, "Programs that do not depend on the open parameters": an instruction of that kind does the same
under every setting of the parameters. -/
def Obligations.ParameterFreeInstructionsDoNotDependOnParameters : Prop :=
  ∀ (i : Instr) (s : State) (c : Config), ParameterFree i s →
    (∃ t, exec i s = .next t) ∧ exec i { s with cfg := c } = withCfg c (exec i s)

/-- The model's choice (notes/assumptions/6.md, 25.md), the host's way to place an instruction: the next step decodes and runs
exactly that word, and nothing but the fetched cell (and a pc of 64 or more) was changed to get there. -/
def Obligations.PlacedWordIsTheNextInstruction : Prop :=
  ∀ (s : State) (w : Nat), w < 65536 →
    (∀ i, decode s.cfg.unaryRt (BitVec.ofNat 16 w) = .instr i →
      step (s.withFetchWord 16 w) = exec i (s.withFetchWord 16 w)) ∧
    (s.withFetchWord 16 w).x = s.x ∧ (s.withFetchWord 16 w).dmem = s.dmem ∧ (s.withFetchWord 16 w).io = s.io ∧
    (s.withFetchWord 16 w).cfg = s.cfg ∧ (s.pc.toNat < 64 → (s.withFetchWord 16 w).pc = s.pc) ∧
    ∀ p, p ≠ (s.withFetchWord 16 w).pc.toNat → (s.withFetchWord 16 w).imem.get p = s.imem.get p
end

