-- ==== Sys2Proof/Laws/Decode.lean ====
section
/-! SUPPORT. Reading a field of a built word, building a word of its own fields, and masking a built word. -/

namespace Sys2Proof

section
variable (o : BitVec 3) (rs rt rd : Reg) (f : BitVec 4) (imm7 : Imm7) (imm10 : Imm10) (w : Word)

@[simp] theorem opcodeField_rrrWord : opcodeField (rrrWord rs rt rd f) = 0b000#3 := by
  unfold opcodeField rrrWord
  ext i h
  interval_cases i <;> simp

@[simp] theorem rsField_rrrWord : rsField (rrrWord rs rt rd f) = rs := by
  unfold rsField rrrWord
  ext i h
  interval_cases i <;> simp

@[simp] theorem rtField_rrrWord : rtField (rrrWord rs rt rd f) = rt := by
  unfold rtField rrrWord
  ext i h
  interval_cases i <;> simp

@[simp] theorem rdField_rrrWord : rdField (rrrWord rs rt rd f) = rd := by
  unfold rdField rrrWord
  ext i h
  interval_cases i <;> simp

@[simp] theorem functField_rrrWord : functField (rrrWord rs rt rd f) = f := by
  unfold functField rrrWord
  ext i h
  interval_cases i <;> simp

@[simp] theorem opcodeField_rriWord : opcodeField (rriWord o rs rt imm7) = o := by
  unfold opcodeField rriWord
  ext i h
  interval_cases i <;> simp

@[simp] theorem rsField_rriWord : rsField (rriWord o rs rt imm7) = rs := by
  unfold rsField rriWord
  ext i h
  interval_cases i <;> simp

@[simp] theorem rtField_rriWord : rtField (rriWord o rs rt imm7) = rt := by
  unfold rtField rriWord
  ext i h
  interval_cases i <;> simp

@[simp] theorem imm7Field_rriWord : imm7Field (rriWord o rs rt imm7) = imm7 := by
  unfold imm7Field rriWord
  ext i h
  interval_cases i <;> simp

@[simp] theorem opcodeField_riWord : opcodeField (riWord o rs imm10) = o := by
  unfold opcodeField riWord
  ext i h
  interval_cases i <;> simp

@[simp] theorem rsField_riWord : rsField (riWord o rs imm10) = rs := by
  unfold rsField riWord
  ext i h
  interval_cases i <;> simp

@[simp] theorem imm10Field_riWord : imm10Field (riWord o rs imm10) = imm10 := by
  unfold imm10Field riWord
  ext i h
  interval_cases i <;> simp

/-- A Funct is made of the parts the decoder reads. -/
theorem funct_of_parts (f : BitVec 4) : f = BitVec.ofBool (f.getLsbD 3) ++ f.extractLsb' 0 3 := by
  revert f
  decide

/-- A word whose opcode is 000 is the RRR word of its fields. -/
theorem rrrWord_of_fields (h : opcodeField w = 0b000#3) :
    rrrWord (rsField w) (rtField w) (rdField w) (functField w) = w := by
  have hb : ∀ i, i < 3 → (opcodeField w).getLsbD i = false := by simp [h]
  unfold opcodeField at hb
  unfold rrrWord rsField rtField rdField functField
  ext i hi
  have h13 := hb 0 (by decide)
  have h14 := hb 1 (by decide)
  have h15 := hb 2 (by decide)
  simp at h13 h14 h15
  interval_cases i <;> simp_all

/-- A word is the RRI word of its fields. -/
theorem rriWord_of_fields : rriWord (opcodeField w) (rsField w) (rtField w) (imm7Field w) = w := by
  unfold rriWord opcodeField rsField rtField imm7Field
  ext i h
  interval_cases i <;> simp

/-- A word is the RI word of its fields. -/
theorem riWord_of_fields : riWord (opcodeField w) (rsField w) (imm10Field w) = w := by
  unfold riWord opcodeField rsField imm10Field
  ext i h
  interval_cases i <;> simp

/-- The opcode and Funct bits of an RRR word (the mask 0xE00F). -/
theorem rrrWord_mask : rrrWord rs rt rd f &&& 0xE00F#16 = f.setWidth 16 := by
  unfold rrrWord
  ext i h
  interval_cases i <;> simp

/-- The opcode, Rt and Funct bits of an RRR word (the mask 0xE38F). -/
theorem rrrWord_mask_rt : rrrWord rs rt rd f &&& 0xE38F#16 = (rt.setWidth 16 <<< 7) ||| f.setWidth 16 := by
  unfold rrrWord
  ext i h
  interval_cases i <;> simp

/-- The opcode bits of an RRI word (the mask 0xE000). -/
theorem rriWord_mask : rriWord o rs rt imm7 &&& 0xE000#16 = o.setWidth 16 <<< 13 := by
  unfold rriWord
  ext i h
  interval_cases i <;> simp

/-- The opcode and immediate bits of an RRI word (the mask 0xE07F). -/
theorem rriWord_mask_imm : rriWord o rs rt imm7 &&& 0xE07F#16 = (o.setWidth 16 <<< 13) ||| imm7.setWidth 16 := by
  unfold rriWord
  ext i h
  interval_cases i <;> simp

/-- The opcode bits of an RI word (the mask 0xE000). -/
theorem riWord_mask : riWord o rs imm10 &&& 0xE000#16 = o.setWidth 16 <<< 13 := by
  unfold riWord
  ext i h
  interval_cases i <;> simp

/-- An RRR word as a number (R61). -/
theorem rrrWord_toNat :
    (rrrWord rs rt rd f).toNat = rs.toNat * 2 ^ 10 + rt.toNat * 2 ^ 7 + rd.toNat * 2 ^ 4 + f.toNat := by
  have h1 := rs.isLt
  have h2 := rt.isLt
  have h3 := rd.isLt
  have h4 := f.isLt
  have : rrrWord rs rt rd f = BitVec.ofNat 16 (rs.toNat * 2 ^ 10 + rt.toNat * 2 ^ 7 + rd.toNat * 2 ^ 4 + f.toNat) := by
    unfold rrrWord
    rw [← BitVec.add_eq_or_of_and_eq_zero, ← BitVec.add_eq_or_of_and_eq_zero, ← BitVec.add_eq_or_of_and_eq_zero]
    · apply BitVec.eq_of_toNat_eq
      simp [Nat.shiftLeft_eq]
    all_goals
      ext i h
      interval_cases i <;> simp
  rw [this, BitVec.toNat_ofNat]
  omega

/-- An RRI word as a number (R62). -/
theorem rriWord_toNat :
    (rriWord o rs rt imm7).toNat = o.toNat * 2 ^ 13 + rs.toNat * 2 ^ 10 + rt.toNat * 2 ^ 7 + imm7.toNat := by
  have h1 := rs.isLt
  have h2 := rt.isLt
  have h3 := o.isLt
  have h4 := imm7.isLt
  have : rriWord o rs rt imm7 = BitVec.ofNat 16 (o.toNat * 2 ^ 13 + rs.toNat * 2 ^ 10 + rt.toNat * 2 ^ 7 + imm7.toNat) := by
    unfold rriWord
    rw [← BitVec.add_eq_or_of_and_eq_zero, ← BitVec.add_eq_or_of_and_eq_zero, ← BitVec.add_eq_or_of_and_eq_zero]
    · apply BitVec.eq_of_toNat_eq
      simp [Nat.shiftLeft_eq]
    all_goals
      ext i h
      interval_cases i <;> simp
  rw [this, BitVec.toNat_ofNat]
  omega

/-- An RI word as a number (R63). -/
theorem riWord_toNat :
    (riWord o rs imm10).toNat = o.toNat * 2 ^ 13 + rs.toNat * 2 ^ 10 + imm10.toNat := by
  have h1 := rs.isLt
  have h3 := o.isLt
  have h4 := imm10.isLt
  have : riWord o rs imm10 = BitVec.ofNat 16 (o.toNat * 2 ^ 13 + rs.toNat * 2 ^ 10 + imm10.toNat) := by
    unfold riWord
    rw [← BitVec.add_eq_or_of_and_eq_zero, ← BitVec.add_eq_or_of_and_eq_zero]
    · apply BitVec.eq_of_toNat_eq
      simp [Nat.shiftLeft_eq]
    all_goals
      ext i h
      interval_cases i <;> simp
  rw [this, BitVec.toNat_ofNat]
  omega

end

end Sys2Proof
end

