-- ==== Sys2Proof/Laws/State.lean ====
section
/-! SUPPORT. What each update of the state does to each field. -/

namespace Sys2Proof.Machine

section
variable (s : State) (r q : Reg) (v t : Word) (e : IoEvent) (a : DAddr)

@[simp] theorem State.setReg_cfg : (s.setReg r v).cfg = s.cfg := rfl
@[simp] theorem State.setReg_pc : (s.setReg r v).pc = s.pc := rfl
@[simp] theorem State.setReg_imem : (s.setReg r v).imem = s.imem := rfl
@[simp] theorem State.setReg_dmem : (s.setReg r v).dmem = s.dmem := rfl
@[simp] theorem State.setReg_io : (s.setReg r v).io = s.io := rfl

@[simp] theorem State.jump_cfg : (s.jump t).cfg = s.cfg := rfl
@[simp] theorem State.jump_pc : (s.jump t).pc = t := rfl
@[simp] theorem State.jump_x : (s.jump t).x = s.x := rfl
@[simp] theorem State.jump_imem : (s.jump t).imem = s.imem := rfl
@[simp] theorem State.jump_dmem : (s.jump t).dmem = s.dmem := rfl
@[simp] theorem State.jump_io : (s.jump t).io = s.io := rfl

@[simp] theorem State.advance_cfg : s.advance.cfg = s.cfg := rfl
@[simp] theorem State.advance_pc : s.advance.pc = s.pc + 1 := rfl
@[simp] theorem State.advance_x : s.advance.x = s.x := rfl
@[simp] theorem State.advance_imem : s.advance.imem = s.imem := rfl
@[simp] theorem State.advance_dmem : s.advance.dmem = s.dmem := rfl
@[simp] theorem State.advance_io : s.advance.io = s.io := rfl

@[simp] theorem State.logIo_cfg : (s.logIo e).cfg = s.cfg := rfl
@[simp] theorem State.logIo_pc : (s.logIo e).pc = s.pc := rfl
@[simp] theorem State.logIo_x : (s.logIo e).x = s.x := rfl
@[simp] theorem State.logIo_imem : (s.logIo e).imem = s.imem := rfl
@[simp] theorem State.logIo_dmem : (s.logIo e).dmem = s.dmem := rfl
@[simp] theorem State.logIo_io : (s.logIo e).io = s.io ++ [e] := rfl

@[simp] theorem State.setDMem_cfg : (s.setDMem a v).cfg = s.cfg := rfl
@[simp] theorem State.setDMem_pc : (s.setDMem a v).pc = s.pc := rfl
@[simp] theorem State.setDMem_x : (s.setDMem a v).x = s.x := rfl
@[simp] theorem State.setDMem_imem : (s.setDMem a v).imem = s.imem := rfl
@[simp] theorem State.setDMem_dmem : (s.setDMem a v).dmem = s.dmem.put a.toNat v := rfl
@[simp] theorem State.setDMem_io : (s.setDMem a v).io = s.io := rfl

@[simp] theorem State.jump_cell : (s.jump t).cell q = s.cell q := rfl
@[simp] theorem State.advance_cell : s.advance.cell q = s.cell q := rfl
@[simp] theorem State.logIo_cell : (s.logIo e).cell q = s.cell q := rfl
@[simp] theorem State.setDMem_cell : (s.setDMem a v).cell q = s.cell q := rfl

@[simp] theorem State.jump_reg : (s.jump t).reg q = s.reg q := rfl
@[simp] theorem State.advance_reg : s.advance.reg q = s.reg q := rfl
@[simp] theorem State.logIo_reg : (s.logIo e).reg q = s.reg q := rfl
@[simp] theorem State.setDMem_reg : (s.setDMem a v).reg q = s.reg q := rfl

/-- Writing a register gives its cell the value and the mark, and leaves every other cell alone (spec/10_state.md R23). -/
theorem State.setReg_cell :
    (s.setReg r v).cell q = if q = r then { value := v, written := true } else s.cell q := by
  unfold State.cell State.setReg
  rw [Vector.getElem_set]
  by_cases h : q = r
  · simp [h]
  · have : r.toNat ≠ q.toNat := fun e => h (BitVec.eq_of_toNat_eq e.symm)
    simp [h, this]

@[simp] theorem State.setReg_cell_same : (s.setReg r v).cell r = { value := v, written := true } := by
  simp [State.setReg_cell]

theorem State.setReg_cell_other (h : q ≠ r) : (s.setReg r v).cell q = s.cell q := by
  simp [State.setReg_cell, h]

@[simp] theorem State.setReg_reg_same : (s.setReg r v).reg r = v := by
  simp [State.reg]

theorem State.setReg_reg_other (h : q ≠ r) : (s.setReg r v).reg q = s.reg q := by
  simp [State.reg, State.setReg_cell_other s r q v h]

end

end Sys2Proof.Machine
end

