-- ==== Sys2Proof/Laws/Memory.lean ====
section
/-! SUPPORT. Reading a written memory, and that every memory operation keeps the canonical form. -/

namespace Sys2Proof.Machine

theorem lookupCell_insertCell (a b : Nat) (v : Word) (cells : List (Nat × Word)) :
    lookupCell (insertCell a v cells) b = if b = a then some v else lookupCell cells b := by
  induction cells with
  | nil => simp [insertCell, lookupCell]
  | cons c rest ih =>
    obtain ⟨d, w⟩ := c
    simp only [insertCell]
    split
    · simp [lookupCell]
    · split
      · subst_vars
        simp only [lookupCell]
        split <;> rfl
      · simp only [lookupCell, ih]
        split_ifs <;> simp_all

theorem insertCell_mem {a : Nat} {v : Word} {cells : List (Nat × Word)} {p : Nat × Word}
    (h : p ∈ insertCell a v cells) : p = (a, v) ∨ p ∈ cells := by
  induction cells with
  | nil => simpa [insertCell] using h
  | cons c rest ih =>
    obtain ⟨d, w⟩ := c
    simp only [insertCell] at h
    split at h
    · simpa using h
    · split at h
      · simp only [List.mem_cons] at h ⊢
        tauto
      · simp only [List.mem_cons] at h ⊢
        rcases h with h | h
        · exact .inr (.inl h)
        · rcases ih h with h | h
          · exact .inl h
          · exact .inr (.inr h)

theorem insertCell_rising (a : Nat) (v : Word) {cells : List (Nat × Word)}
    (h : cells.Pairwise fun p q => p.1 < q.1) :
    (insertCell a v cells).Pairwise fun p q => p.1 < q.1 := by
  induction cells with
  | nil => simp [insertCell]
  | cons c rest ih =>
    obtain ⟨d, w⟩ := c
    rw [List.pairwise_cons] at h
    simp only [insertCell]
    split
    · rename_i hlt
      refine List.pairwise_cons.2 ⟨fun p hp => ?_, List.pairwise_cons.2 h⟩
      rcases List.mem_cons.1 hp with rfl | hp
      · exact hlt
      · exact Nat.lt_trans hlt (h.1 p hp)
    · split
      · rename_i heq
        exact List.pairwise_cons.2 ⟨fun p hp => heq ▸ h.1 p hp, h.2⟩
      · rename_i hlt hne
        refine List.pairwise_cons.2 ⟨fun p hp => ?_, ih h.2⟩
        rcases insertCell_mem hp with rfl | hp
        · exact Nat.lt_of_le_of_ne (Nat.le_of_not_lt hlt) (Ne.symm hne)
        · exact h.1 p hp

/-- Reading after a write: the value written there, every other address as before. -/
theorem Memory.get_put (m : Memory) (a b : Nat) (v : Word) :
    (m.put a v).get b = if b = a then some v else m.get b :=
  lookupCell_insertCell a b v m.cells

@[simp] theorem Memory.get_put_same (m : Memory) (a : Nat) (v : Word) : (m.put a v).get a = some v := by
  simp [Memory.get_put]

theorem Memory.get_put_other (m : Memory) {a b : Nat} (v : Word) (h : b ≠ a) : (m.put a v).get b = m.get b := by
  simp [Memory.get_put, h]

/-- A write inside the memory keeps the canonical form. -/
theorem Memory.put_wf {size : Nat} {m : Memory} {a : Nat} (v : Word) (h : m.wf size) (ha : a < size) :
    (m.put a v).wf size := by
  refine ⟨insertCell_rising a v h.1, fun p hp => ?_⟩
  rcases insertCell_mem hp with rfl | hp
  · exact ha
  · exact h.2 p hp

theorem placeWords_mem {i : Nat} {ws : List Word} {p : Nat × Word} (h : p ∈ placeWords i ws) :
    i ≤ p.1 ∧ p.1 < i + ws.length := by
  induction ws generalizing i with
  | nil => simp [placeWords] at h
  | cons w rest ih =>
    simp only [placeWords, List.mem_cons] at h
    simp only [List.length_cons]
    rcases h with rfl | h
    · simp
    · have := ih h
      omega

theorem placeWords_rising (i : Nat) (ws : List Word) :
    (placeWords i ws).Pairwise fun p q => p.1 < q.1 := by
  induction ws generalizing i with
  | nil => simp [placeWords]
  | cons w rest ih =>
    refine List.pairwise_cons.2 ⟨fun p hp => ?_, ih (i + 1)⟩
    exact (placeWords_mem hp).1

/-- A program placed from address 0 is in canonical form (spec/70_reset_and_hazards.md R173). -/
theorem placeWords_wf {size : Nat} {ws : List Word} (h : ws.length ≤ size) :
    Memory.wf size { cells := placeWords 0 ws } :=
  ⟨placeWords_rising 0 ws, fun p hp => by have := (placeWords_mem hp).2; omega⟩

/-- The memories right after reset have the canonical form. -/
theorem reset_memories_wf : State.reset.imem.wf 64 ∧ State.reset.dmem.wf 32 := by
  decide

end Sys2Proof.Machine
end

