-- ==== Sys2Proof/Laws/Operands.lean ====
section
/-! SUPPORT. The ALU, shifter and extension results in the bit-vector operations of the library. -/

namespace Sys2Proof.Machine

@[simp] theorem trunc16_natCast (n : Nat) : trunc16 (n : Int) = BitVec.ofNat 16 n := by
  simp [trunc16]

@[simp] theorem trunc16_toNat (n : Nat) : (trunc16 (n : Int)).toNat = n % 65536 := by
  simp

theorem aluAdd_eq (a b : Word) : aluAdd a b = a + b := by
  apply BitVec.eq_of_toNat_eq
  rw [aluAdd, ← Int.natCast_add, trunc16_toNat, BitVec.toNat_add]

theorem aluInc_eq (a : Word) : aluInc a = a + 1 := by
  apply BitVec.eq_of_toNat_eq
  rw [aluInc, ← Int.natCast_one, ← Int.natCast_add, trunc16_toNat, BitVec.toNat_add]
  rfl

theorem aluSub_eq (a b : Word) : aluSub a b = a - b := by
  apply BitVec.eq_of_toNat_eq
  rw [aluSub, trunc16, BitVec.toNat_ofInt, BitVec.toNat_sub]
  omega

theorem aluDec_eq (a : Word) : aluDec a = a - 1 := by
  have h : aluDec a = aluSub a 1 := rfl
  rw [h, aluSub_eq]

theorem aluMul_eq (a b : Word) : aluMul a b = a * b := by
  apply BitVec.eq_of_toNat_eq
  rw [aluMul, ← Int.natCast_mul, trunc16_toNat, BitVec.toNat_mul]

theorem shiftLeft_eq (k : Nat) (a : Word) : shiftLeft k a = a <<< k := by
  apply BitVec.eq_of_toNat_eq
  rw [shiftLeft, trunc16_toNat, BitVec.toNat_shiftLeft, Nat.shiftLeft_eq]

theorem shiftRight_eq (k : Nat) (a : Word) : shiftRight k a = a >>> k := by
  apply BitVec.eq_of_toNat_eq
  rw [shiftRight, trunc16_toNat, BitVec.toNat_ushiftRight, Nat.shiftRight_eq_div_pow]
  exact Nat.mod_eq_of_lt (Nat.lt_of_le_of_lt (Nat.div_le_self _ _) a.isLt)

theorem shiftRightArith_eq (a : Word) : shiftRightArith a = a.sshiftRight 1 := by
  unfold shiftRightArith
  rw [shiftRight_eq]
  apply BitVec.eq_of_getLsbD_eq
  intro i hi
  rw [BitVec.getLsbD_or, BitVec.getLsbD_and, BitVec.getLsbD_ushiftRight, BitVec.getLsbD_sshiftRight]
  have hm : (0x8000 : Word).getLsbD i = decide (i = 15) := by
    interval_cases i <;> rfl
  rw [hm, BitVec.msb_eq_getLsbD_last]
  interval_cases i <;> simp
theorem signed_eq_toInt (v : Word) : signed v = v.toInt := by
  rw [signed, BitVec.toInt_eq_toNat_cond]
  have := v.isLt
  split <;> split <;> omega

theorem zext_toNat {n : Nat} (v : BitVec n) (h : n ≤ 16) : (zext v).toNat = v.toNat := by
  rw [zext, BitVec.toNat_ofNat]
  exact Nat.mod_eq_of_lt (Nat.lt_of_lt_of_le v.isLt (Nat.pow_le_pow_right (by decide) h))

theorem sext_toNat {n : Nat} (v : BitVec n) (h : n ≤ 16) :
    (sext v).toNat = if v.toNat < 2 ^ (n - 1) then v.toNat else v.toNat + 65536 - 2 ^ n := by
  have hv := v.isLt
  have hn : 2 ^ n ≤ 65536 := Nat.pow_le_pow_right (by decide) h
  rw [sext, BitVec.toNat_ofNat]
  refine Nat.mod_eq_of_lt ?_
  split <;> omega

/-- Two comparison words are equal when their signals are. -/
theorem signalWord_decide_eq_iff (p q : Prop) [Decidable p] [Decidable q] :
    signalWord (decide p) = signalWord (decide q) ↔ (p ↔ q) := by
  by_cases p <;> by_cases q <;> simp_all [signalWord]

@[simp] theorem equalSignal_self (a : Word) : equalSignal a a = true := by
  simp [equalSignal]

end Sys2Proof.Machine
end

