-- ==== Sys2Proof/Laws/Ops.lean ====
section
/-! SUPPORT. For each shared operation, once, everything it can do. -/

namespace Sys2Proof.Machine

variable {s t : State} {r rd rs rt : Reg} {f : Fault}

theorem result_fault_iff {f g : Fault} : (.fault g : Result) = .fault f ↔ f = g := by
  simp [eq_comm]

theorem result_next_iff {s t : State} : (.next s : Result) = .next t ↔ t = s := by
  simp [eq_comm]

/-! ### Reading a register -/

theorem withReg_readable {k : Word → Result} (h : s.readable r = true) : withReg s r k = k (s.reg r) := by
  simp [withReg, h]

theorem withReg_unreadable {k : Word → Result} (h : s.readable r = false) :
    withReg s r k = .fault (.uninitRead (.reg r)) := by
  simp [withReg, h]

theorem withReg_next {k : Word → Result} :
    withReg s r k = .next t ↔ s.readable r = true ∧ k (s.reg r) = .next t := by
  unfold withReg
  split <;> simp_all

theorem withReg_fault {k : Word → Result} :
    withReg s r k = .fault f ↔
      (s.readable r = true ∧ k (s.reg r) = .fault f) ∨ (s.readable r = false ∧ f = .uninitRead (.reg r)) := by
  unfold withReg
  split
  · simp_all
  · simp_all [result_fault_iff, -Host.Outcome.fault.injEq]

/-! ### The shapes of register instructions -/

theorem binaryOp_readable {g : Word → Word → Word} (h1 : s.readable rs = true) (h2 : s.readable rt = true) :
    binaryOp g rd rs rt s = .next (s.setReg rd (g (s.reg rs) (s.reg rt))).advance := by
  simp [binaryOp, withReg_readable h1, withReg_readable h2]

theorem binaryOp_next {g : Word → Word → Word} :
    binaryOp g rd rs rt s = .next t ↔
      s.readable rs = true ∧ s.readable rt = true ∧ t = (s.setReg rd (g (s.reg rs) (s.reg rt))).advance := by
  simp [binaryOp, withReg_next, result_next_iff, -Host.Outcome.next.injEq]

theorem binaryOp_fault {g : Word → Word → Word} :
    binaryOp g rd rs rt s = .fault f ↔
      (s.readable rs = true ∧ s.readable rt = false ∧ f = .uninitRead (.reg rt)) ∨
      (s.readable rs = false ∧ f = .uninitRead (.reg rs)) := by
  simp [binaryOp, withReg_fault]

theorem unaryOp_readable {g : Word → Word} (h : s.readable rs = true) :
    unaryOp g rd rs s = .next (s.setReg rd (g (s.reg rs))).advance := by
  simp [unaryOp, withReg_readable h]

theorem unaryOp_next {g : Word → Word} :
    unaryOp g rd rs s = .next t ↔ s.readable rs = true ∧ t = (s.setReg rd (g (s.reg rs))).advance := by
  simp [unaryOp, withReg_next, result_next_iff, -Host.Outcome.next.injEq]

theorem unaryOp_fault {g : Word → Word} :
    unaryOp g rd rs s = .fault f ↔ s.readable rs = false ∧ f = .uninitRead (.reg rs) := by
  simp [unaryOp, withReg_fault]

/-! ### The data space -/

theorem withDataAddr_next {imm : Imm10} {k : DAddr → Result} :
    withDataAddr s imm k = .next t ↔ ∃ a, dad s.cfg (sext imm) = some a ∧ k a = .next t := by
  unfold withDataAddr
  split <;> simp_all

theorem withDataAddr_fault {imm : Imm10} {k : DAddr → Result} :
    withDataAddr s imm k = .fault f ↔
      (∃ a, dad s.cfg (sext imm) = some a ∧ k a = .fault f) ∨
      (dad s.cfg (sext imm) = none ∧ f = .dataAddressUndecoded (sext imm)) := by
  unfold withDataAddr
  split
  · simp_all
  · simp_all [result_fault_iff, -Host.Outcome.fault.injEq]

/-- The DAD is the identity on 0..63 (spec/20_memory.md R43). -/
theorem dad_identity (c : Config) {v : Word} (h : v.toNat < 64) : dad c v = some (BitVec.ofNat 6 v.toNat) := by
  simp [dad, h]

theorem isIo_iff (a : DAddr) : isIo a = true ↔ 32 ≤ a.toNat := by
  revert a
  decide

theorem memRead_next {a : DAddr} {k : Word → State → Result} :
    memRead s a k = .next t ↔
      (isIo a = true ∧ k (Config.ioOracle s.io a) (s.logIo (.read a (Config.ioOracle s.io a))) = .next t) ∨
      (isIo a = false ∧ ∃ v, s.dmemValue a = some v ∧ k v s = .next t) := by
  unfold memRead
  split
  · simp_all
  · split <;> simp_all

theorem memRead_fault {a : DAddr} {k : Word → State → Result} :
    memRead s a k = .fault f ↔
      (isIo a = true ∧ k (Config.ioOracle s.io a) (s.logIo (.read a (Config.ioOracle s.io a))) = .fault f) ∨
      (isIo a = false ∧ ∃ v, s.dmemValue a = some v ∧ k v s = .fault f) ∨
      (isIo a = false ∧ s.dmemValue a = none ∧ f = .uninitRead (.dmem a)) := by
  unfold memRead
  split
  · simp_all
  · split
    · simp_all
    · simp_all [result_fault_iff, -Host.Outcome.fault.injEq]

section
variable (s : State) (a : DAddr) (v : Word) (q : Reg)

@[simp] theorem memWrite_cfg : (memWrite s a v).cfg = s.cfg := by unfold memWrite; split <;> rfl
@[simp] theorem memWrite_pc : (memWrite s a v).pc = s.pc := by unfold memWrite; split <;> rfl
@[simp] theorem memWrite_x : (memWrite s a v).x = s.x := by unfold memWrite; split <;> rfl
@[simp] theorem memWrite_imem : (memWrite s a v).imem = s.imem := by unfold memWrite; split <;> rfl
@[simp] theorem memWrite_cell : (memWrite s a v).cell q = s.cell q := by unfold memWrite; split <;> rfl

theorem memWrite_dmem : (memWrite s a v).dmem = if isIo a then s.dmem else s.dmem.put a.toNat v := by
  unfold memWrite
  split <;> rfl

theorem memWrite_io : (memWrite s a v).io = if isIo a then s.io ++ [.write a v] else s.io := by
  unfold memWrite
  split <;> rfl

end

/-- A stored DMem word is what the cell reads as; an unwritten one has no value or its power-up value
(spec/10_state.md R37). -/
theorem State.dmemValue_eq (s : State) (a : DAddr) :
    s.dmemValue a =
      (s.dmem.get a.toNat).orElse fun _ => if s.cfg.uninit = .fault then none else some (Config.dmemPowerUp a) := by
  unfold State.dmemValue
  split
  · simp_all
  · split <;> simp_all

/-! ### Control -/

theorem State.branch_eq (s : State) (taken : Bool) (target : Word) :
    s.branch taken target = s.jump (if taken then target else s.pc + 1) := by
  cases taken <;> rfl

section
variable (s : State) (b : Bool) (v : Word) (q : Reg)

@[simp] theorem State.branch_cfg : (s.branch b v).cfg = s.cfg := by cases b <;> rfl
@[simp] theorem State.branch_pc : (s.branch b v).pc = if b then v else s.pc + 1 := by cases b <;> rfl
@[simp] theorem State.branch_x : (s.branch b v).x = s.x := by cases b <;> rfl
@[simp] theorem State.branch_imem : (s.branch b v).imem = s.imem := by cases b <;> rfl
@[simp] theorem State.branch_dmem : (s.branch b v).dmem = s.dmem := by cases b <;> rfl
@[simp] theorem State.branch_io : (s.branch b v).io = s.io := by cases b <;> rfl
@[simp] theorem State.branch_cell : (s.branch b v).cell q = s.cell q := by cases b <;> rfl

end

/-! ### The instruction space, the step, the launch -/

theorem withFetched_next {k : Word → Result} :
    withFetched s k = .next t ↔
      s.pc.toNat < 64 ∧ ∃ w, s.imem.get s.pc.toNat = some w ∧ k w = .next t := by
  unfold withFetched
  split
  · split <;> simp_all
  · simp_all

theorem withFetched_fault {k : Word → Result} :
    withFetched s k = .fault f ↔
      (s.pc.toNat < 64 ∧ ∃ w, s.imem.get s.pc.toNat = some w ∧ k w = .fault f) ∨
      (s.pc.toNat < 64 ∧ s.imem.get s.pc.toNat = none ∧ f = .fetchNotLoaded s.pc) ∨
      (¬ s.pc.toNat < 64 ∧ f = .fetchOutOfRange s.pc) := by
  unfold withFetched
  split
  · split
    · simp_all
    · simp_all [result_fault_iff, -Host.Outcome.fault.injEq]
  · rename_i h
    simp [h, result_fault_iff, -Host.Outcome.fault.injEq]

/-- The word placed at the pc is the word the next step fetches. -/
theorem withFetched_placeAtPc (s : State) (w : Word) (k : Word → Result) :
    withFetched (s.placeAtPc w) k = k w := by
  unfold withFetched State.placeAtPc
  by_cases h : s.pc.toNat < 64 <;> simp [h]

theorem launch_some {c : Config} {regs : Vector Word 8} {program : List Word} :
    launch c regs program = some s ↔
      c.wellFormed = true ∧ programWellFormed program = true ∧
      s = { cfg := c, pc := c.resetPc, x := regs.map fun v => { value := v, written := false },
            imem := { cells := placeWords 0 program }, dmem := { cells := [] }, io := [] } := by
  unfold launch
  split
  · rename_i h
    rw [Bool.and_eq_true] at h
    simp only [h.1, h.2, true_and, Option.some.injEq]
    exact eq_comm
  · simp_all

end Sys2Proof.Machine
end

