-- ==== Sys2Proof/Laws/PerInstr.lean ====
section
/-! SUPPORT. Statements for all instructions, one lemma per constructor. -/

namespace Sys2Proof.Laws.TableRow

/-- The instruction's word matches the row of spec/opcode_table.json of its mnemonic (spec/30_encoding.md R84). -/
def Statement (i : Instr) : Prop := (opRow (disassemble i).op).matchesWord (encode i) = true

theorem add (rd rs rt : Reg) : Statement (.add rd rs rt) := by
  simp [Statement, OpRow.matchesWord, disassemble, encode, opRow, rrrWord_mask]

theorem inc (rd rs : Reg) : Statement (.inc rd rs) := by
  simp [Statement, OpRow.matchesWord, disassemble, encode, opRow, rrrWord_mask_rt]

theorem sub (rd rs rt : Reg) : Statement (.sub rd rs rt) := by
  simp [Statement, OpRow.matchesWord, disassemble, encode, opRow, rrrWord_mask]

theorem dec (rd rs : Reg) : Statement (.dec rd rs) := by
  simp [Statement, OpRow.matchesWord, disassemble, encode, opRow, rrrWord_mask_rt]

theorem and (rd rs rt : Reg) : Statement (.and rd rs rt) := by
  simp [Statement, OpRow.matchesWord, disassemble, encode, opRow, rrrWord_mask]

theorem or (rd rs rt : Reg) : Statement (.or rd rs rt) := by
  simp [Statement, OpRow.matchesWord, disassemble, encode, opRow, rrrWord_mask]

theorem nand (rd rs rt : Reg) : Statement (.nand rd rs rt) := by
  simp [Statement, OpRow.matchesWord, disassemble, encode, opRow, rrrWord_mask]

theorem xor (rd rs rt : Reg) : Statement (.xor rd rs rt) := by
  simp [Statement, OpRow.matchesWord, disassemble, encode, opRow, rrrWord_mask]

theorem shfl (rd rs : Reg) : Statement (.shfl rd rs) := by
  simp [Statement, OpRow.matchesWord, disassemble, encode, opRow, rrrWord_mask_rt]

theorem shfr (rd rs : Reg) : Statement (.shfr rd rs) := by
  simp [Statement, OpRow.matchesWord, disassemble, encode, opRow, rrrWord_mask_rt]

theorem sll (rd rs : Reg) : Statement (.sll rd rs) := by
  simp [Statement, OpRow.matchesWord, disassemble, encode, opRow, rrrWord_mask_rt]

theorem srr (rd rs : Reg) : Statement (.srr rd rs) := by
  simp [Statement, OpRow.matchesWord, disassemble, encode, opRow, rrrWord_mask_rt]

theorem sra (rd rs : Reg) : Statement (.sra rd rs) := by
  simp [Statement, OpRow.matchesWord, disassemble, encode, opRow, rrrWord_mask_rt]

theorem mul (rd rs rt : Reg) : Statement (.mul rd rs rt) := by
  simp [Statement, OpRow.matchesWord, disassemble, encode, opRow, rrrWord_mask]

theorem slt (rd rs rt : Reg) : Statement (.slt rd rs rt) := by
  simp [Statement, OpRow.matchesWord, disassemble, encode, opRow, rrrWord_mask]

theorem sgt (rd rs rt : Reg) : Statement (.sgt rd rs rt) := by
  simp [Statement, OpRow.matchesWord, disassemble, encode, opRow, rrrWord_mask]

theorem addi (rt rs : Reg) (imm : Imm7) : Statement (.addi rt rs imm) := by
  simp [Statement, OpRow.matchesWord, disassemble, encode, opRow, rriWord_mask]

theorem subi (rt rs : Reg) (imm : Imm7) : Statement (.subi rt rs imm) := by
  simp [Statement, OpRow.matchesWord, disassemble, encode, opRow, rriWord_mask]

theorem beq (rs rt : Reg) (imm : Imm7) : Statement (.beq rs rt imm) := by
  simp [Statement, OpRow.matchesWord, disassemble, encode, opRow, rriWord_mask]

theorem lw (rs : Reg) (imm : Imm10) : Statement (.lw rs imm) := by
  simp [Statement, OpRow.matchesWord, disassemble, encode, opRow, riWord_mask]

theorem sw (rs : Reg) (imm : Imm10) : Statement (.sw rs imm) := by
  simp [Statement, OpRow.matchesWord, disassemble, encode, opRow, riWord_mask]

theorem jnz (rs : Reg) (imm : Imm10) : Statement (.jnz rs imm) := by
  simp [Statement, OpRow.matchesWord, disassemble, encode, opRow, riWord_mask]

theorem li (rs : Reg) (imm : Imm10) : Statement (.li rs imm) := by
  simp [Statement, OpRow.matchesWord, disassemble, encode, opRow, riWord_mask]

theorem not (rd rs : Reg) : Statement (.not rd rs) := by
  simp [Statement, OpRow.matchesWord, disassemble, encode, opRow, rrrWord_mask]

theorem mov (rd rs : Reg) : Statement (.mov rd rs) := by
  simp [Statement, OpRow.matchesWord, disassemble, encode, opRow, rrrWord_mask]

theorem nop (rs : Reg) : Statement (.nop rs) := by
  simp [Statement, OpRow.matchesWord, disassemble, encode, opRow, rriWord_mask_imm]

theorem jmp (rs : Reg) (imm : Imm7) : Statement (.jmp rs imm) := by
  simp [Statement, OpRow.matchesWord, disassemble, encode, opRow, rriWord_mask]

end Sys2Proof.Laws.TableRow
end

