-- ==== Sys2Proof/Laws/Step.lean ====
section
/-! SUPPORT. What one step and a run can do. -/

namespace Sys2Proof.Machine

/-- A step has a next state exactly when it executes an instruction that has one. -/
theorem step_next {s t : State} : step s = .next t ↔ ∃ i, s.current = some i ∧ exec i s = .next t := by
  unfold step State.current
  rw [withFetched_next]
  constructor
  · rintro ⟨h, w, hw, hk⟩
    simp only [h, hw, if_true]
    split at hk
    · rename_i i hi
      exact ⟨i, by simp only [hi], hk⟩
    · cases hk
  · rintro ⟨i, hi, he⟩
    split at hi
    · rename_i h
      refine ⟨h, ?_⟩
      split at hi
      · rename_i w hw
        refine ⟨w, hw, ?_⟩
        split at hi
        · cases hi
          simp_all
        · cases hi
      · cases hi
    · cases hi

/-- The instruction a step executes is the one its fetched word decodes to. -/
theorem State.current_some {s : State} {i : Instr} :
    s.current = some i ↔
      s.pc.toNat < 64 ∧ ∃ w, s.imem.get s.pc.toNat = some w ∧ decode s.cfg.unaryRt w = .instr i := by
  unfold State.current
  constructor
  · intro h
    split at h
    · rename_i hp
      split at h
      · rename_i w hw
        split at h
        · rename_i j hj
          cases h
          exact ⟨hp, w, hw, hj⟩
        · cases h
      · cases h
    · cases h
  · rintro ⟨hp, w, hw, hd⟩
    simp [hp, hw, hd]

theorem run_succ (k : Nat) (s : State) :
    run (k + 1) s = match step s with
      | .next t => run k t
      | .fault f => .fault f
      | .refused r => .refused r := rfl

theorem run_succ_next {k : Nat} {s t : State} :
    run (k + 1) s = .next t ↔ ∃ u, step s = .next u ∧ run k u = .next t := by
  rw [run_succ]
  cases step s <;> simp

theorem run_add {j : Nat} (k : Nat) {s t : State} (h : run j s = .next t) : run (j + k) s = run k t := by
  induction j generalizing s with
  | zero =>
    cases h
    rw [Nat.zero_add]
  | succ j ih =>
    obtain ⟨u, h1, h2⟩ := run_succ_next.1 h
    rw [show j + 1 + k = (j + k) + 1 by omega, run_succ, h1]
    exact ih h2

end Sys2Proof.Machine
end

