-- ==== Sys2Proof/Tests/Slice0.lean ====
section
/-! SUPPORT. Tests on fixed values, expected results from spec/95_test_vectors.md unless a test says otherwise; and for every
statement with hypotheses a witness that they can be met. -/

namespace Sys2Proof.Tests

open Sys2Proof.Machine Sys2Proof.Claims

/-- The next state of a result, if it has one. -/
def nextOf : Result → Option State
  | .next t => some t
  | .fault _ => none
  | .refused _ => none

/-- The fault of a result, if it is one. -/
def faultOf : Result → Option Fault
  | .next _ => none
  | .fault f => some f
  | .refused _ => none

/-- The reset state with the spec's own default parameters (UNINIT = fault), a pc and some registers written. -/
def st (pc : Word) (regs : List (Reg × Word)) : State :=
  regs.foldl (fun s p => s.setReg p.1 p.2) { State.reset with cfg := Config.specDefault, pc := pc }

/-- R3 after `i` with R1 = a and R2 = b. -/
def r3 (i : Instr) (a b : Word) : Option Word := (nextOf (exec i (st 0 [(1, a), (2, b)]))).map (·.reg 3)

/-- The same with CMP_SIGNED = false. -/
def r3u (i : Instr) (a b : Word) : Option Word :=
  let s := st 0 [(1, a), (2, b)]
  (nextOf (exec i { s with cfg := { s.cfg with cmpSigned := false } })).map (·.reg 3)

/-- R2 after `i` with R1 = a. -/
def r2 (i : Instr) (a : Word) : Option Word := (nextOf (exec i (st 0 [(1, a)]))).map (·.reg 2)

/-- The pc after `i` at an address with R1 = a and R2 = b. -/
def pcAfter (i : Instr) (pc a b : Word) : Option Word := (nextOf (exec i (st pc [(1, a), (2, b)]))).map (·.pc)

/-- A state with one instruction word at its pc. -/
def at_ (s : State) (word : Word) : State := s.placeAtPc word

/-! ### Well-formedness: an ill-formed term for each check -/

theorem test_pseudo_instructions_are_ill_formed :
    Instr.wellFormed (.not 1 2) = false ∧ Instr.wellFormed (.mov 1 2) = false ∧
    Instr.wellFormed (.nop 0) = false ∧ Instr.wellFormed (.jmp 0 9) = false ∧
    Instr.wellFormed (.nand 1 2 2) = true := by decide

theorem test_reset_pc_64_is_ill_formed :
    Config.wellFormed { Config.specDefault with resetPc := 64 } = false ∧
    Config.wellFormed { Config.specDefault with resetPc := 63 } = true := by decide

theorem test_dad_listing_an_identity_address_is_ill_formed :
    Config.wellFormed { Config.specDefault with dadExtra := [(63, 1)] } = false ∧
    Config.wellFormed { Config.specDefault with dadExtra := [(64, 0), (0xFFFF, 63)] } = true := by decide

theorem test_dad_listing_a_value_twice_is_ill_formed :
    Config.wellFormed { Config.specDefault with dadExtra := [(64, 0), (64, 1)] } = false := by decide

theorem test_program_of_65_words_is_ill_formed :
    programWellFormed (List.replicate 65 0) = false ∧ programWellFormed (List.replicate 64 0) = true := by decide

/-! ### Decoding: words written out bit by bit (2.1) -/

theorem test_decode_add : decode .fault 0b0000010100110000 = .instr (.add 3 1 2) ∧ encode (.add 3 1 2) = 0b0000010100110000 := by decide

theorem test_decode_inc : decode .fault 0b0000010000110001 = .instr (.inc 3 1) ∧ encode (.inc 3 1) = 0b0000010000110001 := by decide

theorem test_decode_sub : decode .fault 0b0000010100110010 = .instr (.sub 3 1 2) ∧ encode (.sub 3 1 2) = 0b0000010100110010 := by decide

theorem test_decode_dec : decode .fault 0b0000010000110011 = .instr (.dec 3 1) ∧ encode (.dec 3 1) = 0b0000010000110011 := by decide

theorem test_decode_and : decode .fault 0b0000010100110100 = .instr (.and 3 1 2) ∧ encode (.and 3 1 2) = 0b0000010100110100 := by decide

theorem test_decode_or : decode .fault 0b0000010100110101 = .instr (.or 3 1 2) ∧ encode (.or 3 1 2) = 0b0000010100110101 := by decide

theorem test_decode_nand : decode .fault 0b0000010100110110 = .instr (.nand 3 1 2) ∧ encode (.nand 3 1 2) = 0b0000010100110110 := by decide

theorem test_decode_xor : decode .fault 0b0000010100110111 = .instr (.xor 3 1 2) ∧ encode (.xor 3 1 2) = 0b0000010100110111 := by decide

theorem test_decode_shfl : decode .fault 0b0000010000111000 = .instr (.shfl 3 1) ∧ encode (.shfl 3 1) = 0b0000010000111000 := by decide

theorem test_decode_shfr : decode .fault 0b0000010000111001 = .instr (.shfr 3 1) ∧ encode (.shfr 3 1) = 0b0000010000111001 := by decide

theorem test_decode_sll : decode .fault 0b0000010000111010 = .instr (.sll 3 1) ∧ encode (.sll 3 1) = 0b0000010000111010 := by decide

theorem test_decode_srr : decode .fault 0b0000010000111011 = .instr (.srr 3 1) ∧ encode (.srr 3 1) = 0b0000010000111011 := by decide

theorem test_decode_sra : decode .fault 0b0000010000111100 = .instr (.sra 3 1) ∧ encode (.sra 3 1) = 0b0000010000111100 := by decide

theorem test_decode_mul : decode .fault 0b0000010100111101 = .instr (.mul 3 1 2) ∧ encode (.mul 3 1 2) = 0b0000010100111101 := by decide

theorem test_decode_slt : decode .fault 0b0000010100111110 = .instr (.slt 3 1 2) ∧ encode (.slt 3 1 2) = 0b0000010100111110 := by decide

theorem test_decode_sgt : decode .fault 0b0000010100111111 = .instr (.sgt 3 1 2) ∧ encode (.sgt 3 1 2) = 0b0000010100111111 := by decide

theorem test_decode_addi : decode .fault 0b0010010101111111 = .instr (.addi 2 1 127) ∧ encode (.addi 2 1 127) = 0b0010010101111111 := by decide

theorem test_decode_subi : decode .fault 0b0100010101000000 = .instr (.subi 2 1 64) ∧ encode (.subi 2 1 64) = 0b0100010101000000 := by decide

theorem test_decode_beq : decode .fault 0b0110010100001010 = .instr (.beq 1 2 10) ∧ encode (.beq 1 2 10) = 0b0110010100001010 := by decide

theorem test_decode_lw : decode .fault 0b1001000000000111 = .instr (.lw 4 7) ∧ encode (.lw 4 7) = 0b1001000000000111 := by decide

theorem test_decode_sw : decode .fault 0b1011000000100000 = .instr (.sw 4 32) ∧ encode (.sw 4 32) = 0b1011000000100000 := by decide

theorem test_decode_jnz : decode .fault 0b1101010000000011 = .instr (.jnz 5 3) ∧ encode (.jnz 5 3) = 0b1101010000000011 := by decide

theorem test_decode_li : decode .fault 0b1111110100101100 = .instr (.li 7 300) ∧ encode (.li 7 300) = 0b1111110100101100 := by decide

theorem test_decode_not : encode (.not 3 1) = 0b0000010010110110 ∧ decode .fault 0b0000010010110110 = .instr (.nand 3 1 1) := by decide

theorem test_decode_mov : encode (.mov 3 1) = 0b0000010010110100 ∧ decode .fault 0b0000010010110100 = .instr (.and 3 1 1) := by decide

theorem test_decode_nop : encode (.nop 0) = 0b0010000000000000 ∧ decode .fault 0b0010000000000000 = .instr (.addi 0 0 0) := by decide

theorem test_decode_jmp : encode (.jmp 0 9) = 0b0110000000001001 ∧ decode .fault 0b0110000000001001 = .instr (.beq 0 0 9) := by decide

theorem test_decode_edge_words :
    decode .fault 0x0000 = .instr (.add 0 0 0) ∧ decode .fault 0xFFFF = .instr (.li 7 1023) ∧
    decode .fault 0x0380 = .instr (.add 0 0 7) ∧ decode .fault 0x5555 = .instr (.subi 2 5 85) ∧
    decode .fault 0xABCD = .instr (.sw 2 973) ∧ decode .fault 0xC000 = .instr (.jnz 0 0) := by decide

theorem test_decode_reserved :
    decode .fault 0x04B1 = .reservedEncoding 0x04B1 ∧ decode .fault 0x03F1 = .reservedEncoding 0x03F1 ∧
    decode .ignore 0x03F1 = .instr (.inc 7 0) ∧ decode .ignore 0x0081 = .instr (.inc 0 0) := by decide

theorem test_assemble_immediates :
    assemble { op := .addi, args := [.reg 1, .reg 1, .imm (-1)] } = some (.addi 1 1 0x7F) ∧
    assemble { op := .addi, args := [.reg 1, .reg 1, .imm 127] } = some (.addi 1 1 0x7F) ∧
    assemble { op := .addi, args := [.reg 1, .reg 1, .imm 128] } = none ∧
    assemble { op := .li, args := [.reg 6, .imm (-513)] } = none := by decide

/-! ### Instructions (sections 3 to 6) -/

theorem test_add :
    r3 (.add 3 1 2) 0x0001 0x0002 = some 0x0003 ∧
    r3 (.add 3 1 2) 0xFFFF 0x0001 = some 0x0000 ∧
    r3 (.add 3 1 2) 0x7FFF 0x0001 = some 0x8000 ∧
    r3 (.add 3 1 2) 0x8000 0x8000 = some 0x0000 := by decide

theorem test_sub :
    r3 (.sub 3 1 2) 0x0005 0x0003 = some 0x0002 ∧
    r3 (.sub 3 1 2) 0x0000 0x0001 = some 0xFFFF ∧
    r3 (.sub 3 1 2) 0x8000 0x0001 = some 0x7FFF := by decide

theorem test_and :
    r3 (.and 3 1 2) 0xF0F0 0xFF00 = some 0xF000 ∧
    r3 (.and 3 1 2) 0xFFFF 0x0000 = some 0x0000 := by decide

theorem test_or :
    r3 (.or 3 1 2) 0xF0F0 0x0F0F = some 0xFFFF ∧
    r3 (.or 3 1 2) 0xF0F0 0xFF00 = some 0xFFF0 := by decide

theorem test_nand :
    r3 (.nand 3 1 2) 0xF0F0 0xFF00 = some 0x0FFF ∧
    r3 (.nand 3 1 2) 0x0000 0x0000 = some 0xFFFF := by decide

theorem test_xor :
    r3 (.xor 3 1 2) 0xF0F0 0xFF00 = some 0x0FF0 ∧
    r3 (.xor 3 1 2) 0xAAAA 0xAAAA = some 0x0000 := by decide

theorem test_mul :
    r3 (.mul 3 1 2) 0x0003 0x0005 = some 0x000F ∧
    r3 (.mul 3 1 2) 0x0100 0x0100 = some 0x0000 ∧
    r3 (.mul 3 1 2) 0xFFFF 0xFFFF = some 0x0001 ∧
    r3 (.mul 3 1 2) 0x00FF 0x0101 = some 0xFFFF ∧
    r3 (.mul 3 1 2) 0x012C 0x012C = some 0x5F90 := by decide

theorem test_inc :
    r3 (.inc 3 1) 0x0000 0x5A5A = some 0x0001 ∧
    r3 (.inc 3 1) 0xFFFF 0x5A5A = some 0x0000 ∧
    r3 (.inc 3 1) 0x7FFF 0x5A5A = some 0x8000 := by decide

theorem test_dec :
    r3 (.dec 3 1) 0x0001 0x5A5A = some 0x0000 ∧
    r3 (.dec 3 1) 0x0000 0x5A5A = some 0xFFFF ∧
    r3 (.dec 3 1) 0x8000 0x5A5A = some 0x7FFF := by decide

theorem test_shfl :
    r3 (.shfl 3 1) 0x8001 0x5A5A = some 0x0002 ∧
    r3 (.shfl 3 1) 0x4000 0x5A5A = some 0x8000 ∧
    r3 (.shfl 3 1) 0xFFFF 0x5A5A = some 0xFFFE := by decide

theorem test_shfr :
    r3 (.shfr 3 1) 0x0001 0x5A5A = some 0x0000 ∧
    r3 (.shfr 3 1) 0x8000 0x5A5A = some 0x4000 ∧
    r3 (.shfr 3 1) 0xFFFF 0x5A5A = some 0x7FFF := by decide

theorem test_sll :
    r3 (.sll 3 1) 0xC001 0x5A5A = some 0x0004 ∧
    r3 (.sll 3 1) 0x4000 0x5A5A = some 0x0000 ∧
    r3 (.sll 3 1) 0xFFFF 0x5A5A = some 0xFFFC := by decide

theorem test_srr :
    r3 (.srr 3 1) 0x8003 0x5A5A = some 0x2000 ∧
    r3 (.srr 3 1) 0xFFFF 0x5A5A = some 0x3FFF := by decide

theorem test_sra :
    r3 (.sra 3 1) 0x8001 0x5A5A = some 0xC000 ∧
    r3 (.sra 3 1) 0xFFFF 0x5A5A = some 0xFFFF ∧
    r3 (.sra 3 1) 0x7FFF 0x5A5A = some 0x3FFF ∧
    r3 (.sra 3 1) 0x0001 0x5A5A = some 0x0000 := by decide

theorem test_slt :
    r3 (.slt 3 1 2) 0x0001 0x0002 = some 1 ∧ r3u (.slt 3 1 2) 0x0001 0x0002 = some 1 ∧
    r3 (.slt 3 1 2) 0x0005 0x0005 = some 0 ∧ r3u (.slt 3 1 2) 0x0005 0x0005 = some 0 ∧
    r3 (.slt 3 1 2) 0xFFFF 0x0001 = some 1 ∧ r3u (.slt 3 1 2) 0xFFFF 0x0001 = some 0 ∧
    r3 (.slt 3 1 2) 0x8000 0x7FFF = some 1 ∧ r3u (.slt 3 1 2) 0x8000 0x7FFF = some 0 ∧
    r3 (.slt 3 1 2) 0x0000 0x8000 = some 0 ∧ r3u (.slt 3 1 2) 0x0000 0x8000 = some 1 := by decide

theorem test_sgt :
    r3 (.sgt 3 1 2) 0x0001 0x0002 = some 0 ∧ r3u (.sgt 3 1 2) 0x0001 0x0002 = some 0 ∧
    r3 (.sgt 3 1 2) 0x0005 0x0005 = some 0 ∧ r3u (.sgt 3 1 2) 0x0005 0x0005 = some 0 ∧
    r3 (.sgt 3 1 2) 0xFFFF 0x0001 = some 0 ∧ r3u (.sgt 3 1 2) 0xFFFF 0x0001 = some 1 ∧
    r3 (.sgt 3 1 2) 0x8000 0x7FFF = some 0 ∧ r3u (.sgt 3 1 2) 0x8000 0x7FFF = some 1 ∧
    r3 (.sgt 3 1 2) 0x0000 0x8000 = some 1 ∧ r3u (.sgt 3 1 2) 0x0000 0x8000 = some 0 := by decide

/-- Register overlap (section 3), and that the other registers and the pc are as R100 says. -/
theorem test_overlap :
    (nextOf (exec (.add 1 1 1) (st 0 [(1, 3)]))).map (·.reg 1) = some 6 ∧
    (nextOf (exec (.sub 1 1 1) (st 0 [(1, 3)]))).map (·.reg 1) = some 0 ∧
    (nextOf (exec (.inc 1 1) (st 0 [(1, 3)]))).map (·.reg 1) = some 4 ∧
    (nextOf (exec (.add 3 1 2) (st 9 [(1, 3), (2, 5)]))).map (fun t => (t.reg 1, t.reg 2, t.pc)) = some (3, 5, 10) := by
  decide

theorem test_rrr_faults :
    faultOf (exec (.add 3 1 2) (st 0 [(1, 3)])) = some (.uninitRead (.reg 2)) ∧
    faultOf (exec (.add 3 1 2) (st 0 [(2, 3)])) = some (.uninitRead (.reg 1)) ∧
    faultOf (step (at_ (st 0 [(1, 3)]) 0x0531)) = some (.reservedEncoding 0x0531) := by decide

/-- UNARY_RT = ignore: word 0x0531 is inc R3, R1 and does not read R2. -/
theorem test_unary_rt_ignore :
    let s := at_ (st 0 [(1, 3)]) 0x0531
    (nextOf (step { s with cfg := { s.cfg with unaryRt := .ignore } })).map (·.reg 3) = some 4 := by decide

theorem test_addi :
    r2 (.addi 2 1 5) 0x0010 = some 0x0015 ∧ r2 (.addi 2 1 0x7F) 0x0010 = some 0x000F ∧
    r2 (.addi 2 1 0x40) 0x0000 = some 0xFFC0 ∧ r2 (.addi 2 1 63) 0x7FFF = some 0x803E := by decide

theorem test_subi :
    r2 (.subi 2 1 5) 0x0010 = some 0x000B ∧ r2 (.subi 2 1 0x7F) 0x0010 = some 0x0011 ∧
    r2 (.subi 2 1 0x40) 0x0000 = some 0x0040 ∧ r2 (.subi 2 1 1) 0x8000 = some 0x7FFF := by decide

theorem test_beq :
    pcAfter (.beq 1 2 10) 4 0x1234 0x1234 = some 10 ∧ pcAfter (.beq 1 2 10) 4 0x1234 0x1235 = some 5 ∧
    pcAfter (.beq 1 2 10) 4 0x8000 0x0000 = some 5 ∧ pcAfter (.beq 1 2 64) 4 7 7 = some 64 ∧
    pcAfter (.beq 1 2 10) 63 1 2 = some 64 := by decide

theorem test_jnz :
    pcAfter (.jnz 1 3) 6 2 0 = some 3 ∧ pcAfter (.jnz 1 3) 6 0 0 = some 7 ∧ pcAfter (.jnz 1 3) 6 0x8000 0 = some 3 ∧
    pcAfter (.jnz 1 1000) 1 1 0 = some 1000 := by decide

theorem test_lw :
    (nextOf (exec (.lw 4 7) ((st 0 []).setDMem 7 0xBEEF))).map (fun t => (t.reg 4, t.pc, t.io)) = some (0xBEEF, 1, []) ∧
    faultOf (exec (.lw 4 7) (st 0 [])) = some (.uninitRead (.dmem 7)) ∧
    faultOf (exec (.lw 4 64) (st 0 [])) = some (.dataAddressUndecoded 0x0040) ∧
    faultOf (exec (.lw 4 1023) (st 0 [])) = some (.dataAddressUndecoded 0xFFFF) := by decide

/-- An I/O read loads the oracle's answer and records it, whatever it is. -/
theorem test_lw_io :
    (nextOf (exec (.lw 4 63) (st 0 []))).map (fun t => (t.reg 4, t.io, t.dmem)) =
      some (Config.ioOracle [] 63, [.read 63 (Config.ioOracle [] 63)], { cells := [] }) := by rfl

theorem test_sw :
    (nextOf (exec (.sw 4 7) (st 0 [(4, 0x1234)]))).map (fun t => (t.dmem, t.io)) = some ({ cells := [(7, 0x1234)] }, []) ∧
    (nextOf (exec (.sw 4 31) (st 0 [(4, 1)]))).map (·.dmem) = some { cells := [(31, 1)] } ∧
    (nextOf (exec (.sw 4 32) (st 0 [(4, 0x1234)]))).map (fun t => (t.dmem, t.io)) =
      some ({ cells := [] }, [.write 32 0x1234]) ∧
    faultOf (exec (.sw 1 64) (st 0 [])) = some (.uninitRead (.reg 1)) ∧
    faultOf (exec (.sw 1 64) (st 0 [(1, 0)])) = some (.dataAddressUndecoded 0x0040) := by decide

theorem test_li :
    (nextOf (exec (.li 6 511) (st 0 []))).map (·.reg 6) = some 0x01FF ∧
    (nextOf (exec (.li 6 512) (st 0 []))).map (·.reg 6) = some 0xFE00 ∧
    (nextOf (exec (.li 6 1023) { st 0 [] with cfg := { Config.specDefault with liExt := .zero } })).map (·.reg 6) =
      some 0x03FF := by decide

theorem test_not : r3 (.not 3 1) 0xF0F0 0 = some 0x0F0F ∧ r3 (.not 3 1) 0x0000 0 = some 0xFFFF := by decide

theorem test_mov : r3 (.mov 3 1) 0x1234 0 = some 0x1234 := by decide

theorem test_nop :
    (nextOf (exec (.nop 0) (st 0 [(0, 0x00AA)]))).map (fun t => (t.reg 0, t.pc)) = some (0x00AA, 1) ∧
    faultOf (exec (.nop 0) (st 0 [])) = some (.uninitRead (.reg 0)) ∧
    (nextOf (exec (.nop 0) State.reset)).map (·.pc) = some 1 := by decide

theorem test_jmp :
    pcAfter (.jmp 1 9) 0 7 0 = some 9 ∧ faultOf (exec (.jmp 0 9) (st 0 [])) = some (.uninitRead (.reg 0)) ∧
    (nextOf (exec (.jmp 0 9) State.reset)).map (·.pc) = some 9 := by decide

/-! ### The step -/

theorem test_step_runs_placed_word :
    (nextOf (step (State.reset.withFetchWord 16 0xE405))).map (fun t => (t.reg 1, t.pc)) = some (5, 1) ∧
    (nextOf (step (State.reset.withFetchWord 16 0x0530))).map (·.pc) = some 1 ∧
    (nextOf (step (State.reset.withFetchWord 16 0x8000))).isSome = true := by decide

theorem test_step_faults :
    faultOf (step (st 64 [])) = some (.fetchOutOfRange 64) ∧ faultOf (step (st 63 [])) = some (.fetchNotLoaded 63) ∧
    faultOf (step (at_ (st 63 []) 0x2000)) = some (.uninitRead (.reg 0)) := by decide

theorem test_decode_table_word :
    decodeTableWord 16 0x0531 = none ∧ decodeTableWord 16 0xD403 = some (.jnz 5 3) ∧
    decodeTableWord 32 0 = none := by decide

/-! ### Witnesses: each statement's hypotheses can be met, clause by clause -/

theorem witness_StepRunsDecodedInstruction_fetch_faults :
    64 ≤ (st 64 []).pc.toNat ∧ (st 63 []).pc.toNat < 64 ∧ (st 63 []).imem.get 63 = none := by decide

theorem witness_StepRunsDecodedInstruction_decoded :
    (at_ (st 63 []) 0x04B1).pc.toNat < 64 ∧ (at_ (st 63 []) 0x04B1).imem.get 63 = some 0x04B1 ∧
    decode .fault 0x04B1 = .reservedEncoding 0x04B1 ∧ decode .ignore 0x04B1 = .instr (.inc 3 1) := by decide

theorem witness_EncodedInstructionDecodesBack :
    Instr.wellFormed (.li 7 1023) = true := by decide

theorem witness_DecodedWordEncodesBack :
    ¬ IsReservedWord 0x0431 ∧ ¬ IsReservedWord 0xFFFF := by unfold IsReservedWord; decide

theorem witness_DecoderAnswersMachineInstructions :
    decode .fault 0x04B6 = .instr (.nand 3 1 1) ∧ decode .ignore 0x2000 = .instr (.addi 0 0 0) := by decide

theorem witness_TableRowsPartitionTheWords :
    IsReservedWord 0x04B1 ∧ IsReservedWord 0x03FC ∧ ¬ IsReservedWord 0x04B0 ∧
    decode .fault 0xE000 = .instr (.li 0 0) ∧ decode .ignore 0x04B1 = .instr (.inc 3 1) := by unfold IsReservedWord; decide

theorem witness_AssemblyLineReadsBack :
    Instr.wellFormed (.addi 1 2 127) = true ∧ (Instr.not 1 2 = .not 1 2 ∨ Instr.not 1 2 = .mov 1 2) ∧
    Instr.nop 0 = .nop 0 ∧ Instr.jmp 0 64 = .jmp 0 64 := by decide

theorem witness_AssemblerImmediateRange :
    immField 7 (-64) = some 0x40 ∧ immField 7 127 = some 0x7F ∧ immField 7 (-65) = none ∧ immField 7 128 = none ∧
    immField 10 (-512) = some 0x200 ∧ immField 10 1023 = some 0x3FF ∧ immField 10 1024 = none := by decide

theorem witness_ExtensionPrimitives :
    (0 < 1 ∧ 1 ≤ 16) ∧ (0 < 16 ∧ 16 ≤ 16) ∧ sext (1#1) = 0xFFFF ∧ sext (0x7FFF#16) = 0x7FFF ∧ zext (0x7F#7) = 0x7F := by decide

theorem witness_ArithmeticNeedsNoSignedness :
    (nextOf (exec (.add 3 1 2) (st 0 [(1, 0x8000), (2, 0xFFFF)]))).isSome = true ∧
    (nextOf (exec (.sub 3 1 2) (st 0 [(1, 0x8000), (2, 1)]))).isSome = true ∧
    (nextOf (exec (.inc 3 1) (st 0 [(1, 0xFFFF)]))).isSome = true ∧ (nextOf (exec (.dec 3 1) (st 0 [(1, 0)]))).isSome = true ∧
    (nextOf (exec (.mul 3 1 2) (st 0 [(1, 0xFFFF), (2, 2)]))).isSome = true := by decide

/-- The three clauses of a two-source rule (AddSubRules, MulRule, AndNandRules, OrXorRules, CompareRules, BeqRule; SgtIsSltSwapped has the first). -/
theorem witness_TwoSourceRule :
    (st 0 [(1, 5), (2, 6)]).readable 1 = true ∧ (st 0 [(1, 5), (2, 6)]).readable 2 = true ∧
    (st 0 [(2, 6)]).readable 1 = false ∧ (st 0 [(1, 5)]).readable 1 = true ∧ (st 0 [(1, 5)]).readable 2 = false := by decide

/-- The clauses of a one-source rule (IncDecRules, ShiftRules, LogicalRightShiftRules, and reading for AddiSubiRules, JnzRule, the pseudo-instructions), its
reserved words at Rt = 1 and Rt = 7. -/
theorem witness_OneSourceRule :
    (st 0 [(7, 5)]).readable 7 = true ∧ (st 0 []).readable 0 = false ∧
    (1 : Reg) ≠ 0 ∧ (0x04B1 : Word).toNat = 1 * 2 ^ 10 + 1 * 2 ^ 7 + 3 * 2 ^ 4 + 1 ∧
    (7 : Reg) ≠ 0 ∧ (0x07BC : Word).toNat = 1 * 2 ^ 10 + 7 * 2 ^ 7 + 3 * 2 ^ 4 + 12 := by decide

/-- The immediates an assembler accepts, at both ends (AddiSubiRules, BeqRule, JmpRule; RiForm of LwRule, SwRule, JnzRule, LiRule). -/
theorem witness_ImmediateRanges :
    ((-64 : Int) ≤ -64 ∧ (-64 : Int) < 128) ∧ ((-64 : Int) ≤ 127 ∧ (127 : Int) < 128) ∧
    ((-512 : Int) ≤ -512 ∧ (-512 : Int) < 1024) ∧ ((-512 : Int) ≤ 1023 ∧ (1023 : Int) < 1024) := by decide

theorem witness_CompareSettingsDifferByTopBits :
    (st 0 [(1, 0x8000), (2, 0x7FFF)]).cfg.cmpSigned = true ∧ r3 (.slt 3 1 2) 0x8000 0x7FFF = some 1 ∧
    r3u (.slt 3 1 2) 0x8000 0x7FFF = some 0 ∧ r3 (.sgt 3 1 2) 2 1 = some 1 ∧ r3u (.sgt 3 1 2) 2 1 = some 1 := by decide

theorem witness_BeqRule_cases :
    (st 0 [(1, 5), (2, 5)]).reg 1 = (st 0 [(1, 5), (2, 5)]).reg 2 ∧ 64 ≤ (64 : Imm7).toNat ∧
    (st 63 [(1, 5)]).pc.toNat = (63 : Imm7).toNat ∧ (st 63 [(1, 5), (2, 6)]).reg 1 ≠ (st 63 [(1, 5), (2, 6)]).reg 2 ∧
    (st 63 [(1, 5), (2, 6)]).pc.toNat = 63 := by decide

theorem witness_JnzRule_cases :
    (st 0 [(1, 0x8000)]).reg 1 ≠ 0 ∧ 64 ≤ (64 : Imm10).toNat ∧ 64 ≤ (1023 : Imm10).toNat ∧
    (st 9 [(1, 1)]).pc.toNat = (9 : Imm10).toNat ∧ (st 0 [(1, 0)]).reg 1 = 0 ∧ (st 0 [(1, 0)]).readable 1 = true := by decide

theorem witness_DataAddressDecoder :
    (63 : Imm10).toNat < 64 ∧ 64 ≤ (64 : Imm10).toNat ∧ (st 0 []).cfg.dadExtra = [] ∧ (st 0 [(1, 0)]).readable 1 = true := by decide

/-- A DAD parameter with two listed values. -/
def dadConfig : Config := { Config.specDefault with dadExtra := [(64, 0), (0xFFFF, 63)] }

theorem witness_DataAddressDecoderParameter :
    dadConfig.wellFormed = true ∧ 64 ≤ (64 : Word).toNat ∧ dad dadConfig 0xFFFF = some 63 ∧ dad dadConfig 64 = some 0 ∧
    dad dadConfig 65 = none := by decide

theorem witness_LwRule_addresses :
    dad (st 0 []).cfg (sext (64 : Imm10)) = none ∧ dad (st 0 []).cfg (sext (31 : Imm10)) = some 31 ∧ (31 : DAddr).toNat < 32 ∧
    dad (st 0 []).cfg (sext (32 : Imm10)) = some 32 ∧ 32 ≤ (32 : DAddr).toNat ∧ 32 ≤ (63 : DAddr).toNat := by decide

theorem witness_LwRule_and_LwOfAnUnwrittenCell_cells :
    ((st 0 []).setDMem 31 7).dmem.get 31 = some 7 ∧ (st 0 []).dmem.get 31 = none ∧ (st 0 []).cfg.uninit = .fault ∧
    State.reset.dmem.get 31 = none ∧ State.reset.cfg.uninit = .arbitrary ∧ dad State.reset.cfg (sext (31 : Imm10)) = some 31 := by decide

theorem witness_SwRule :
    (st 0 []).readable 4 = false ∧ (st 0 [(4, 1)]).readable 4 = true ∧ dad (st 0 [(4, 1)]).cfg (sext (1023 : Imm10)) = none ∧
    dad (st 0 [(4, 1)]).cfg (sext (0 : Imm10)) = some 0 ∧ dad (st 0 [(4, 1)]).cfg (sext (63 : Imm10)) = some 63 := by decide

theorem witness_LiRule :
    (st 0 []).cfg.liExt = .sign ∧ ({ Config.specDefault with liExt := .zero } : Config).liExt = .zero := by decide

theorem witness_FaultsInTheOrderOfChecks :
    (at_ (st 63 []) 0x04B1).cfg.unaryRt = .fault ∧ IsReservedWord 0x04B1 ∧
    firstFault (.sw 1 64) (st 0 []) = some (.uninitRead (.reg 1)) ∧
    firstFault (.beq 1 2 0) (st 0 [(1, 1)]) = some (.uninitRead (.reg 2)) ∧
    firstFault (.lw 1 64) (st 0 []) = some (.dataAddressUndecoded 64) ∧
    firstFault (.lw 1 31) (st 0 []) = some (.uninitRead (.dmem 31)) ∧ firstFault (.lw 1 32) (st 0 []) = none := by unfold IsReservedWord; decide

theorem witness_EveryInstructionCompletesOrFaultsInOrder :
    firstFault (.li 0 0) (st 0 []) = none ∧ firstFault (.add 3 1 2) (st 0 [(1, 0), (2, 0)]) = none ∧
    firstFault (.nop 0) State.reset = none := by decide

theorem witness_FaultsOnlyAsTheTableLists :
    faultOf (step (st 64 [])) = some (.fetchOutOfRange 64) ∧ faultOf (step (st 0 [])) = some (.fetchNotLoaded 0) ∧
    faultOf (step (at_ (st 0 []) 0x04B1)) = some (.reservedEncoding 0x04B1) ∧
    faultOf (step (at_ (st 0 []) 0x2000)) = some (.uninitRead (.reg 0)) ∧
    faultOf (step (at_ (st 0 []) 0x8403)) = some (.uninitRead (.dmem 3)) ∧
    faultOf (step (at_ (st 0 []) 0x87FF)) = some (.dataAddressUndecoded 0xFFFF) := by decide

/-- The values 64, 65, … of a list of addresses, for a DAD that is total. -/
def allFrom : Nat → List (Word × DAddr)
  | 0 => []
  | n + 1 => (BitVec.ofNat 16 n, BitVec.ofNat 6 n) :: allFrom n

theorem allFrom_decodes (n : Nat) (hn : n ≤ 65536) (v : Word) (h : v.toNat < n) : dadLookup (allFrom n) v ≠ none := by
  induction n with
  | zero => omega
  | succ n ih =>
    unfold allFrom dadLookup
    split
    · simp
    · rename_i hne
      refine ih (by omega) (Nat.lt_of_le_of_ne (Nat.le_of_lt_succ h) fun e => hne ?_)
      exact BitVec.eq_of_toNat_eq (by rw [BitVec.toNat_ofNat, ← e]; exact Nat.mod_eq_of_lt v.isLt)

/-- Parameters under which no fault but a fetch fault is left. -/
def totalConfig : Config :=
  { Config.specDefault with unaryRt := .ignore, uninit := .arbitrary, dadExtra := allFrom 65536 }

theorem witness_TotalParametersRemoveFaults :
    let s := { at_ (st 63 []) 0xFFFF with cfg := totalConfig }
    s.cfg.unaryRt = .ignore ∧ s.cfg.uninit = .arbitrary ∧ (∀ v, dad s.cfg v ≠ none) ∧ s.pc.toNat < 64 ∧
    s.imem.get s.pc.toNat = some 0xFFFF := by
  refine ⟨rfl, rfl, fun v => ?_, by decide, by decide⟩
  unfold dad
  split
  · simp
  · exact allFrom_decodes 65536 (Nat.le_refl _) v v.isLt

theorem witness_UninitDecidesReadability :
    (st 0 []).cfg.uninit = .fault ∧ State.reset.cfg.uninit = .arbitrary := by decide

/-- An instruction of each kind has a next state: the premise of OnlyTheDestinationChanges, OnlyTheStoredWordChanges,
IoEventsInProgramOrder and SequentialAdvance. -/
theorem witness_exec_next :
    (nextOf (exec (.add 3 1 2) (st 0 [(1, 0), (2, 0)]))).isSome = true ∧ (nextOf (exec (.sw 1 31) (st 0 [(1, 0)]))).isSome = true ∧
    storedAddress (.sw 1 31) (st 0 [(1, 0)]) = some 31 ∧ storedAddress (.sw 1 32) (st 0 [(1, 0)]) = none ∧
    (nextOf (exec (.lw 1 32) (st 0 []))).isSome = true ∧ (nextOf (exec (.jnz 1 5) (st 0 [(1, 1)]))).isSome = true ∧
    destination (.add 3 1 2) = some 3 ∧ destination (.beq 1 2 0) = none ∧ ioEvents (.sw 1 32) (st 0 [(1, 0)]) = [.write 32 0] := by decide

/-- A run with a next state and cells that keep a value: ProgramIsConstantOverRuns, WrittenCellsStayWritten. -/
theorem witness_run_next :
    (nextOf (run 1 (at_ ((st 0 [(1, 5)]).setDMem 3 9) 0xE405))).isSome = true ∧ (((st 0 [(1, 5)]).setDMem 3 9).cell 1).written = true ∧
    ((st 0 [(1, 5)]).setDMem 3 9).dmem.get 3 ≠ none := by decide

theorem witness_StepKeepsStateWellFormed :
    (at_ ((st 0 [(1, 5)]).setDMem 31 9) 0xA41F).wf ∧ (nextOf (step (at_ ((st 0 [(1, 5)]).setDMem 31 9) 0xA41F))).isSome = true := by unfold State.wf; decide

theorem witness_LaunchIsWellFormed :
    (launch Config.specDefault (Vector.replicate 8 0) (List.replicate 64 0)).isSome = true := by
  unfold launch
  rw [if_pos (by decide)]
  rfl

theorem witness_LaunchState :
    (64 ≤ (64 : Word).toNat) ∧ 64 < (List.replicate 65 (0 : Word)).length ∧ Config.specDefault.resetPc.toNat < 64 ∧
    Config.specDefault.dadExtra = [] ∧ (List.replicate 64 (0 : Word)).length ≤ 64 := by decide

theorem witness_StoreThenLoadReturnsTheWord :
    (st 0 [(1, 5)]).readable 1 = true ∧ dad (st 0 [(1, 5)]).cfg (sext (31 : Imm10)) = some 31 ∧ (31 : DAddr).toNat < 32 := by decide

theorem witness_LoadSeesTheLatestStore :
    let s := at_ ((st 0 []).setDMem 31 9) 0xE405
    s.dmem.get (31 : DAddr).toNat = some 9 ∧ (∃ t, run 1 s = .next t) ∧
    ∀ j, j < 1 → ∀ u, run j s = .next u → ∀ i, u.current = some i → storedAddress i u ≠ some 31 := by
  refine ⟨by decide, ⟨_, rfl⟩, fun j hj u hu i hi => ?_⟩
  obtain rfl : j = 0 := by omega
  cases hu
  have : State.current (at_ ((st 0 []).setDMem 31 9) 0xE405) = some (.li 1 5) := by decide
  rw [this] at hi
  cases hi
  decide

theorem witness_LoadSeesTheLatestStore_load :
    let s := at_ ((st 0 []).setDMem 31 9) 0xE405
    (31 : DAddr).toNat < 32 ∧ (nextOf (run 1 s)).map (fun t => dad t.cfg (sext (31 : Imm10))) = some (some 31) := by decide

theorem witness_FinalExactlyAtSelfBranch :
    State.current (at_ (st 7 [(0, 1)]) 0x6007) = some (.beq 0 0 7) ∧ (st 7 [(0, 1)]).readable 0 = true ∧
    (7 : Imm7).toNat = (st 7 []).pc.toNat ∧ State.current (at_ (st 7 [(1, 1)]) 0xC407) = some (.jnz 1 7) ∧ (st 7 [(1, 1)]).reg 1 ≠ 0 := by decide

/-- A run from State.reset reads R7, which nothing has written, and then DMem 31, which nothing has stored. -/
theorem witness_UnwrittenCellsNeverStopARunUnderArbitrary :
    State.reset.cfg.uninit = .arbitrary ∧
    (nextOf (run 2 { State.reset with imem := { cells := placeWords 0 [0x1F90, 0x881F] } })).map (·.pc) = some 2 := by decide

/-- A run that ends at once in a self-beq, and one that ends after a step in a self-jnz. -/
theorem witness_SuccessfulRunsEndInASelfBranchOfTheProgram :
    (at_ (st 7 [(0, 1)]) 0x6007).endsSuccessfully ∧
    State.endsSuccessfully { st 0 [] with imem := { cells := placeWords 0 [0xE405, 0xC401] } } := by
  refine ⟨⟨0, _, rfl, ?_⟩, ⟨1, _, rfl, ?_⟩⟩ <;> rfl

theorem witness_ParameterFree :
    ParameterFree (.slt 3 1 2) (st 0 [(1, 0x8000), (2, 0xFFFF)]) ∧ ParameterFree (.li 1 511) (st 0 []) ∧
    ParameterFree (.lw 1 31) ((st 0 []).setDMem 31 9) ∧ ParameterFree (.lw 1 32) (st 0 []) ∧
    ParameterFree (.sw 1 63) (st 0 [(1, 5)]) ∧ ParameterFree (.beq 1 1 127) (st 0 [(1, 5)]) := by
  unfold ParameterFree
  refine ⟨?_, ?_, ?_, ?_, ?_, ?_⟩ <;> refine ⟨by decide, ?_⟩ <;> dsimp only <;> decide

theorem witness_PlacedWordIsTheNextInstruction :
    (0xFFFF : Nat) < 65536 ∧ decode State.reset.cfg.unaryRt (BitVec.ofNat 16 0xFFFF) = .instr (.li 7 1023) ∧
    (st 63 []).pc.toNat < 64 ∧ (64 : Nat) ≠ ((st 63 []).withFetchWord 16 0).pc.toNat := by decide

end Sys2Proof.Tests
end

section
/-! Every operation of the machine answers a next state or a fault (spec/00_scope.md R12). -/

namespace Sys2Proof.Machine

/-- The two outcomes R12 allows a step; the third one of `Host.Outcome`, a refusal, is left out. -/
def NextOrFault (r : Result) : Prop := (∃ t, r = .next t) ∨ ∃ f, r = .fault f

@[simp] theorem nextOrFault_next (t : State) : NextOrFault (.next t) := .inl ⟨t, rfl⟩

@[simp] theorem nextOrFault_fault (f : Fault) : NextOrFault (.fault f) := .inr ⟨f, rfl⟩

section
variable {s : State}

/-! ### The operations that run a continuation answer as it does, or raise their own fault -/

theorem withReg_nextOrFault {r : Reg} {k : Word → Result} (hk : ∀ v, NextOrFault (k v)) :
    NextOrFault (withReg s r k) := by
  cases h : s.readable r with
  | true => rw [withReg_readable h]; exact hk _
  | false => rw [withReg_unreadable h]; exact nextOrFault_fault _

theorem withDataAddr_nextOrFault {imm : Imm10} {k : DAddr → Result} (hk : ∀ a, NextOrFault (k a)) :
    NextOrFault (withDataAddr s imm k) := by
  unfold withDataAddr
  split
  · exact hk _
  · exact nextOrFault_fault _

theorem memRead_nextOrFault {a : DAddr} {k : Word → State → Result} (hk : ∀ v t, NextOrFault (k v t)) :
    NextOrFault (memRead s a k) := by
  unfold memRead
  split
  · exact hk _ _
  · split
    · exact hk _ _
    · exact nextOrFault_fault _

theorem withFetched_nextOrFault {k : Word → Result} (hk : ∀ w, NextOrFault (k w)) :
    NextOrFault (withFetched s k) := by
  unfold withFetched
  split
  · split
    · exact hk _
    · exact nextOrFault_fault _
  · exact nextOrFault_fault _

/-! ### The shapes of instructions -/

theorem binaryOp_nextOrFault {g : Word → Word → Word} {rd rs rt : Reg} : NextOrFault (binaryOp g rd rs rt s) :=
  withReg_nextOrFault fun _ => withReg_nextOrFault fun _ => nextOrFault_next _

theorem unaryOp_nextOrFault {g : Word → Word} {rd rs : Reg} : NextOrFault (unaryOp g rd rs s) :=
  withReg_nextOrFault fun _ => nextOrFault_next _

theorem execSlt_nextOrFault {rd rs rt : Reg} : NextOrFault (execSlt rd rs rt s) := binaryOp_nextOrFault

theorem execSgt_nextOrFault {rd rs rt : Reg} : NextOrFault (execSgt rd rs rt s) := binaryOp_nextOrFault

/-- beq, and jmp which is a beq of a register with itself. -/
theorem execBeq_nextOrFault {rs rt : Reg} {imm : Imm7} : NextOrFault (execBeq rs rt imm s) :=
  withReg_nextOrFault fun _ => withReg_nextOrFault fun _ => nextOrFault_next _

theorem execLw_nextOrFault {rs : Reg} {imm : Imm10} : NextOrFault (execLw rs imm s) :=
  withDataAddr_nextOrFault fun _ => memRead_nextOrFault fun _ _ => nextOrFault_next _

theorem execSw_nextOrFault {rs : Reg} {imm : Imm10} : NextOrFault (execSw rs imm s) :=
  withReg_nextOrFault fun _ => withDataAddr_nextOrFault fun _ => nextOrFault_next _

theorem execJnz_nextOrFault {rs : Reg} {imm : Imm10} : NextOrFault (execJnz rs imm s) :=
  withReg_nextOrFault fun _ => nextOrFault_next _

end

/-! ### Every instruction, every step -/

theorem exec_nextOrFault (i : Instr) (s : State) : NextOrFault (exec i s) := by
  cases i with
  | add | sub | and | or | nand | xor | mul | not | mov => exact binaryOp_nextOrFault
  | slt => exact execSlt_nextOrFault
  | sgt => exact execSgt_nextOrFault
  | inc | dec | shfl | shfr | sll | srr | sra | addi | subi | nop => exact unaryOp_nextOrFault
  | beq | jmp => exact execBeq_nextOrFault
  | lw => exact execLw_nextOrFault
  | sw => exact execSw_nextOrFault
  | jnz => exact execJnz_nextOrFault
  | li => exact nextOrFault_next _

theorem step_nextOrFault (s : State) : NextOrFault (step s) := by
  unfold step
  refine withFetched_nextOrFault fun w => ?_
  split
  · exact exec_nextOrFault _ s
  · exact nextOrFault_fault _

/-- Settles O41: the fetch, the decoder's reserved verdict and every instruction answer a next state or a fault. -/
theorem stepIsNextOrFault : Obligations.StepIsNextOrFault := step_nextOrFault

end Sys2Proof.Machine
end

section
/-! What an instruction that completes has done to the state (spec/10_state.md R27 to R37). Every frame and every invariant
below is read off this. -/

namespace Sys2Proof.Machine

open Sys2Proof.Claims

/-- What can become of a state when an instruction completes: one register takes a result; lw loads a DMem word, or the oracle's
answer, which enters the history; sw stores or performs its I/O write; beq, jnz and jmp set the pc alone. -/
inductive Effect (s : State) : Instr → State → Prop where
  | compute {i : Instr} {r : Reg} (v : Word) (hdest : destination i = some r) (haddr : dataAddress i s = none) :
      Effect s i (s.setReg r v).advance
  | loadDMem {rs : Reg} {imm : Imm10} {a : DAddr} {v : Word} (haddr : dad s.cfg (sext imm) = some a)
      (hio : isIo a = false) (hv : s.dmemValue a = some v) :
      Effect s (.lw rs imm) (s.setReg rs v).advance
  | loadIo {rs : Reg} {imm : Imm10} {a : DAddr} (haddr : dad s.cfg (sext imm) = some a) (hio : isIo a = true) :
      Effect s (.lw rs imm)
        ((s.logIo (.read a (Config.ioOracle s.io a))).setReg rs (Config.ioOracle s.io a)).advance
  | store {rs : Reg} {imm : Imm10} {a : DAddr} (haddr : dad s.cfg (sext imm) = some a) :
      Effect s (.sw rs imm) (memWrite s a (s.reg rs)).advance
  | branch {i : Instr} (hdest : destination i = none) (haddr : dataAddress i s = none) :
      Effect s i (s.jump (nextPc i s))

section
variable {i : Instr} {s t : State} {rd rs rt : Reg} {imm : Imm10}

/-! ### The shapes of instructions have these effects -/

theorem binaryOp_effect {g : Word → Word → Word} (hdest : destination i = some rd) (haddr : dataAddress i s = none)
    (h : binaryOp g rd rs rt s = .next t) : Effect s i t := by
  obtain ⟨-, -, rfl⟩ := binaryOp_next.1 h
  exact .compute _ hdest haddr

theorem unaryOp_effect {g : Word → Word} (hdest : destination i = some rd) (haddr : dataAddress i s = none)
    (h : unaryOp g rd rs s = .next t) : Effect s i t := by
  obtain ⟨-, rfl⟩ := unaryOp_next.1 h
  exact .compute _ hdest haddr

theorem execSlt_effect (h : execSlt rd rs rt s = .next t) : Effect s (.slt rd rs rt) t :=
  binaryOp_effect rfl rfl h

theorem execSgt_effect (h : execSgt rd rs rt s = .next t) : Effect s (.sgt rd rs rt) t :=
  binaryOp_effect rfl rfl h

/-- A branch that completes sets the pc to its target if its signal is on, else to the next address. -/
theorem branch_effect {taken : Bool} {target : Word} (hdest : destination i = none) (haddr : dataAddress i s = none)
    (hpc : nextPc i s = if taken then target else s.pc + 1) : Effect s i (s.branch taken target) := by
  rw [State.branch_eq, ← hpc]
  exact .branch hdest haddr

theorem execBeq_effect {imm : Imm7} (h : execBeq rs rt imm s = .next t) : Effect s (.beq rs rt imm) t := by
  obtain ⟨-, h⟩ := withReg_next.1 h
  obtain ⟨-, h⟩ := withReg_next.1 h
  cases h
  exact branch_effect rfl rfl (by simp [nextPc, equalSignal, beqTarget, zext])

theorem execJmp_effect {imm : Imm7} (h : execJmp rs imm s = .next t) : Effect s (.jmp rs imm) t := by
  obtain ⟨-, h⟩ := withReg_next.1 h
  obtain ⟨-, h⟩ := withReg_next.1 h
  cases h
  exact branch_effect rfl rfl (by simp [nextPc, beqTarget, zext])

theorem execJnz_effect (h : execJnz rs imm s = .next t) : Effect s (.jnz rs imm) t := by
  obtain ⟨-, h⟩ := withReg_next.1 h
  cases h
  exact branch_effect rfl rfl (by simp [nextPc, nonZeroSignal, jnzTarget, zext])

theorem execLw_effect (h : execLw rs imm s = .next t) : Effect s (.lw rs imm) t := by
  obtain ⟨a, haddr, h⟩ := withDataAddr_next.1 h
  rcases memRead_next.1 h with ⟨hio, h⟩ | ⟨hio, v, hv, h⟩
  · cases h
    exact .loadIo haddr hio
  · cases h
    exact .loadDMem haddr hio hv

theorem execSw_effect (h : execSw rs imm s = .next t) : Effect s (.sw rs imm) t := by
  obtain ⟨-, h⟩ := withReg_next.1 h
  obtain ⟨a, haddr, h⟩ := withDataAddr_next.1 h
  cases h
  exact .store haddr

theorem execLi_effect (h : execLi rs imm s = .next t) : Effect s (.li rs imm) t := by
  cases h
  exact .compute _ rfl rfl

end

section
variable {i : Instr} {s t : State}

/-- Every instruction that completes has one of these effects. -/
theorem exec_effect (h : exec i s = .next t) : Effect s i t := by
  cases i with
  | add | sub | and | or | nand | xor | mul | not | mov => exact binaryOp_effect rfl rfl h
  | inc | dec | shfl | shfr | sll | srr | sra | addi | subi | nop => exact unaryOp_effect rfl rfl h
  | slt => exact execSlt_effect h
  | sgt => exact execSgt_effect h
  | beq => exact execBeq_effect h
  | jmp => exact execJmp_effect h
  | jnz => exact execJnz_effect h
  | lw => exact execLw_effect h
  | sw => exact execSw_effect h
  | li => exact execLi_effect h

/-- A step that has a next state started at a pc below 64 and had the effect of some instruction. -/
theorem step_effect (h : step s = .next t) : s.pc.toNat < 64 ∧ ∃ i, Effect s i t := by
  obtain ⟨i, hi, h⟩ := step_next.1 h
  exact ⟨(State.current_some.1 hi).1, i, exec_effect h⟩

/-! ### What an effect leaves as it was -/

theorem Effect.imem (h : Effect s i t) : t.imem = s.imem := by
  cases h <;> simp

theorem Effect.cfg (h : Effect s i t) : t.cfg = s.cfg := by
  cases h <;> simp

/-- Every register but the destination keeps its cell (R23). -/
theorem Effect.cell_of_ne_destination (h : Effect s i t) {q : Reg} (hq : destination i ≠ some q) :
    t.cell q = s.cell q := by
  cases h with
  | compute v hdest =>
    have hne : q ≠ _ := fun e => hq (e ▸ hdest)
    simp [State.setReg_cell_other _ _ _ _ hne]
  | loadDMem | loadIo =>
    have hne : q ≠ _ := fun e => hq (congrArg some e.symm)
    simp [State.setReg_cell_other _ _ _ _ hne]
  | store | branch => simp

/-- The destination holds a value afterwards (R37). -/
theorem Effect.destination_written (h : Effect s i t) {r : Reg} (hr : destination i = some r) :
    (t.cell r).written = true := by
  cases h with
  | compute v hdest =>
    cases hdest.symm.trans hr
    simp
  | loadDMem | loadIo =>
    cases hr
    simp
  | store => cases hr
  | branch hdest => cases hdest.symm.trans hr

/-- A written register stays written: it keeps its cell, or it is the destination (R37). -/
theorem Effect.written (h : Effect s i t) {r : Reg} (hr : (s.cell r).written = true) : (t.cell r).written = true := by
  by_cases hdest : destination i = some r
  · exact h.destination_written hdest
  · rw [h.cell_of_ne_destination hdest]
    exact hr

/-! ### What an effect does to the data memory, the history and the pc -/

/-- DMem is as before, or one of its 32 words has been written (R44). -/
theorem Effect.dmem (h : Effect s i t) :
    t.dmem = s.dmem ∨ ∃ (a : DAddr) (v : Word), a.toNat < 32 ∧ t.dmem = s.dmem.put a.toNat v := by
  cases h with
  | compute | loadDMem | loadIo | branch => simp
  | @store rs _ a =>
    rw [State.advance_dmem, memWrite_dmem]
    split
    · exact .inl rfl
    · rename_i hio
      exact .inr ⟨a, s.reg rs, Nat.lt_of_not_le fun ha => hio ((isIo_iff a).2 ha), rfl⟩

theorem Effect.dmem_get_ne_none (h : Effect s i t) {b : Nat} (hb : s.dmem.get b ≠ none) : t.dmem.get b ≠ none := by
  rcases h.dmem with hd | ⟨a, v, -, hd⟩
  · rwa [hd]
  · rw [hd, Memory.get_put]
    split
    · simp
    · exact hb

theorem Effect.dmem_wf (h : Effect s i t) (hs : s.dmem.wf 32) : t.dmem.wf 32 := by
  rcases h.dmem with hd | ⟨a, v, ha, hd⟩
  · rwa [hd]
  · rw [hd]
    exact Memory.put_wf v hs ha

/-- The history grows by at most one event, of an address of the I/O region (R35). -/
theorem Effect.io (h : Effect s i t) : t.io = s.io ∨ ∃ e, isIo (eventAddr e) = true ∧ t.io = s.io ++ [e] := by
  cases h with
  | compute | loadDMem | branch => simp
  | @loadIo _ _ a _ hio => exact .inr ⟨.read a (Config.ioOracle s.io a), hio, rfl⟩
  | @store rs _ a =>
    rw [State.advance_io, memWrite_io]
    split
    · rename_i hio
      exact .inr ⟨.write a (s.reg rs), hio, rfl⟩
    · exact .inl rfl

theorem Effect.io_region (h : Effect s i t) (hs : ∀ e ∈ s.io, isIo (eventAddr e) = true) :
    ∀ e ∈ t.io, isIo (eventAddr e) = true := by
  rcases h.io with hio | ⟨e, he, hio⟩
  · rwa [hio]
  · rw [hio]
    simpa [or_imp, forall_and, he] using hs

/-- An instruction with a destination falls through (R27). -/
theorem nextPc_of_destination {r : Reg} (h : destination i = some r) : nextPc i s = s.pc + 1 := by
  cases i with
  | beq | jnz | jmp => cases h
  | _ => rfl

theorem Effect.pc (h : Effect s i t) : t.pc = nextPc i s := by
  cases h with
  | compute v hdest => simp [nextPc_of_destination hdest]
  | loadDMem | loadIo | store => simp [nextPc]
  | branch => rfl

/-- From a pc that can be fetched an instruction goes to its immediate, of at most 10 bits, or to the next address
(spec/30_encoding.md R69, R71). -/
theorem nextPc_lt (i : Instr) (h : s.pc.toNat < 64) : (nextPc i s).toNat < 1024 := by
  have hnext : (s.pc + 1).toNat < 1024 := by bv_omega
  have himm {n : Nat} (hn : n ≤ 10) (imm : BitVec n) : (imm.setWidth 16).toNat < 1024 := by
    rw [BitVec.toNat_setWidth_of_le (by omega)]
    exact Nat.lt_of_lt_of_le imm.isLt (Nat.pow_le_pow_right (by decide) hn)
  cases i with
  | beq | jnz =>
    simp only [nextPc]
    split
    · exact himm (by decide) _
    · exact hnext
  | jmp => exact himm (by decide) _
  | _ => exact hnext

/-! ### Steps and runs -/

theorem step_keeps_program {s t : State} (h : step s = .next t) : t.imem = s.imem ∧ t.cfg = s.cfg := by
  obtain ⟨-, i, he⟩ := step_effect h
  exact ⟨he.imem, he.cfg⟩

theorem step_keeps_wf {s t : State} (hs : s.wf) (h : step s = .next t) : t.wf := by
  obtain ⟨himem, hdmem, hio, -, hcfg⟩ := hs
  obtain ⟨hpc, i, he⟩ := step_effect h
  exact ⟨he.imem ▸ himem, he.dmem_wf hdmem, he.io_region hio, he.pc ▸ nextPc_lt i hpc, he.cfg ▸ hcfg⟩

/-- A property every step keeps holds at the end of every run that starts with it. -/
theorem run_keeps {P : State → Prop} (hstep : ∀ {u v : State}, P u → step u = .next v → P v) {k : Nat} {s t : State}
    (hs : P s) (h : run k s = .next t) : P t := by
  induction k generalizing s with
  | zero =>
    cases h
    exact hs
  | succ k ih =>
    obtain ⟨u, hu, h⟩ := run_succ_next.1 h
    exact ih (hstep hs hu) h

end

/-! ### The statements -/

/-- Settles O46: one step keeps IMem and the parameters, so every run does. -/
theorem programIsConstantOverRuns : Obligations.ProgramIsConstantOverRuns := by
  intro k s t h
  refine run_keeps (P := fun u => u.imem = s.imem ∧ u.cfg = s.cfg) ?_ ⟨rfl, rfl⟩ h
  rintro u v ⟨himem, hcfg⟩ hstep
  obtain ⟨himem', hcfg'⟩ := step_keeps_program hstep
  exact ⟨himem'.trans himem, hcfg'.trans hcfg⟩

/-- Settles O48, component by component, from the effect of the step's instruction. -/
theorem stepKeepsStateWellFormed : Obligations.StepKeepsStateWellFormed :=
  fun _ _ => step_keeps_wf

/-- Settles O42, from the effect of the instruction. -/
theorem onlyTheDestinationChanges : Obligations.OnlyTheDestinationChanges :=
  fun _ _ _ h => ⟨fun _ => (exec_effect h).cell_of_ne_destination, fun _ => (exec_effect h).destination_written⟩

/-- Settles O47: register by register and word by word, having a value is kept by every step. -/
theorem writtenCellsStayWritten : Obligations.WrittenCellsStayWritten := by
  intro k s t h
  refine ⟨fun r hr => run_keeps (P := fun u => (u.cell r).written = true) ?_ hr h,
    fun a ha => run_keeps (P := fun u => u.dmem.get a ≠ none) ?_ ha h⟩
  · intro u v hu hstep
    obtain ⟨-, i, he⟩ := step_effect hstep
    exact he.written hu
  · intro u v hu hstep
    obtain ⟨-, i, he⟩ := step_effect hstep
    exact he.dmem_get_ne_none hu

end Sys2Proof.Machine
end

section
/-! What the decoder can answer (spec/30_encoding.md R73, R74), and the step that fetches a word (spec/10_state.md R29). -/

namespace Sys2Proof

/-- A proper answer to a word: a machine instruction, or the reserved verdict on that very word (R73). -/
def Decoded.properFor (w : Word) : Decoded → Prop
  | .instr i => i.wellFormed = true
  | .reservedEncoding v => v = w

section
variable (u : UnaryRt) (w : Word)

@[simp] theorem Decoded.properFor_instr (i : Instr) : (Decoded.instr i).properFor w ↔ i.wellFormed = true := Iff.rfl

@[simp] theorem decodeOneSource_properFor (i : Instr) :
    (decodeOneSource u w i).properFor w ↔ (rtField w ≠ 0 ∧ u = .fault) ∨ i.wellFormed = true := by
  unfold decodeOneSource
  split
  · rename_i h
    exact ⟨fun _ => .inl h, fun _ => rfl⟩
  · rename_i h
    simp only [h, false_or, Decoded.properFor_instr]

theorem decodeRrr_proper : (decodeRrr u w).properFor w := by
  unfold decodeRrr
  dsimp only
  split
  all_goals simp [Instr.wellFormed]

theorem decode_proper : (decode u w).properFor w := by
  unfold decode
  dsimp only
  split
  · exact decodeRrr_proper u w
  all_goals simp [Instr.wellFormed]

end

/-- The decoder answers machine instructions only (R82). -/
theorem wellFormed_of_decode {u : UnaryRt} {w : Word} {i : Instr} (h : decode u w = .instr i) : i.wellFormed = true := by
  have hp := decode_proper u w
  rwa [h] at hp

/-- The reserved verdict carries the decoded word. -/
theorem eq_of_decode_reserved {u : UnaryRt} {w v : Word} (h : decode u w = .reservedEncoding v) : v = w := by
  have hp := decode_proper u w
  rwa [h] at hp

end Sys2Proof

namespace Sys2Proof.Machine

section
variable {s : State} {w : Word}

theorem step_fetchOutOfRange (h : 64 ≤ s.pc.toNat) : step s = .fault (.fetchOutOfRange s.pc) :=
  withFetched_fault.2 (.inr (.inr ⟨Nat.not_lt.2 h, rfl⟩))

theorem step_fetchNotLoaded (hpc : s.pc.toNat < 64) (hw : s.imem.get s.pc.toNat = none) :
    step s = .fault (.fetchNotLoaded s.pc) :=
  withFetched_fault.2 (.inr (.inl ⟨hpc, hw, rfl⟩))

/-- A fetch that succeeds hands its word on. -/
theorem withFetched_loaded {k : Word → Result} (hpc : s.pc.toNat < 64) (hw : s.imem.get s.pc.toNat = some w) :
    withFetched s k = k w := by
  simp [withFetched, hpc, hw]

theorem step_reservedEncoding {v : Word} (hpc : s.pc.toNat < 64) (hw : s.imem.get s.pc.toNat = some w)
    (hd : decode s.cfg.unaryRt w = .reservedEncoding v) : step s = .fault (.reservedEncoding w) := by
  obtain rfl := eq_of_decode_reserved hd
  rw [step, withFetched_loaded hpc hw, hd]

theorem step_eq_exec {i : Instr} (hpc : s.pc.toNat < 64) (hw : s.imem.get s.pc.toNat = some w)
    (hd : decode s.cfg.unaryRt w = .instr i) : step s = exec i s := by
  rw [step, withFetched_loaded hpc hw, hd]

end

/-- Settles O1: the four outcomes of fetch and decoding, in the order of R29. -/
theorem stepRunsDecodedInstruction : Obligations.StepRunsDecodedInstruction :=
  fun _ => ⟨step_fetchOutOfRange, step_fetchNotLoaded, fun _ hpc hw =>
    ⟨fun _ => step_reservedEncoding hpc hw, fun _ hd => ⟨wellFormed_of_decode hd, step_eq_exec hpc hw hd⟩⟩⟩

end Sys2Proof.Machine
end

section
/-! The data memory across one instruction and across a store with the load after it (spec/20_memory.md R42 to R47). -/

namespace Sys2Proof.Machine

open Sys2Proof.Claims

section
variable {s t : State} {i : Instr} {rs rd : Reg} {imm : Imm10} {a : DAddr} {v : Word}

/-! ### An access below 32 is to DMem -/

theorem isIo_eq_false_iff : isIo a = false ↔ a.toNat < 32 := by
  rw [← Bool.not_eq_true, isIo_iff, Nat.not_le]

theorem withDataAddr_decoded {k : DAddr → Result} (haddr : dad s.cfg (sext imm) = some a) :
    withDataAddr s imm k = k a := by
  simp [withDataAddr, haddr]

theorem memRead_dmem {k : Word → State → Result} (ha : a.toNat < 32) (hv : s.dmemValue a = some v) :
    memRead s a k = k v s := by
  simp [memRead, isIo_eq_false_iff.2 ha, hv]

theorem memWrite_eq_setDMem (ha : a.toNat < 32) : memWrite s a v = s.setDMem a v := by
  simp [memWrite, isIo_eq_false_iff.2 ha]

/-- A stored word is what the cell reads as, under either setting of UNINIT (spec/10_state.md R37). -/
@[simp] theorem State.dmemValue_setDMem_same : (s.setDMem a v).dmemValue a = some v := by
  simp [State.dmemValue_eq]

theorem State.advance_dmemValue : s.advance.dmemValue a = s.dmemValue a := rfl

/-! ### lw and sw at a DMem address -/

/-- R132: sw completes once its source is readable and its address decoded. -/
theorem execSw_decoded (hr : s.readable rs = true) (haddr : dad s.cfg (sext imm) = some a) :
    execSw rs imm s = .next (memWrite s a (s.reg rs)).advance := by
  rw [execSw, withReg_readable hr, withDataAddr_decoded haddr]

/-- R131: lw of a DMem word that has a value loads it and performs no I/O. -/
theorem execLw_dmem (haddr : dad s.cfg (sext imm) = some a) (ha : a.toNat < 32) (hv : s.dmemValue a = some v) :
    execLw rd imm s = .next (s.setReg rd v).advance := by
  rw [execLw, withDataAddr_decoded haddr, memRead_dmem ha hv]

/-! ### The DMem word an instruction stores -/

theorem storedAddress_sw : storedAddress (.sw rs imm) s = some a ↔ dad s.cfg (sext imm) = some a ∧ a.toNat < 32 := by
  simp [storedAddress, dataAddress, Option.filter_eq_some_iff]

/-- DMem is as before, or the word at the stored address has been written (R44). -/
theorem Effect.dmem_stored (h : Effect s i t) :
    t.dmem = s.dmem ∨ ∃ a v, storedAddress i s = some a ∧ t.dmem = s.dmem.put a.toNat v := by
  cases h with
  | compute | loadDMem | loadIo | branch => exact .inl (by simp)
  | @store rs _ a haddr =>
    rw [State.advance_dmem, memWrite_dmem]
    cases hio : isIo a with
    | true => exact .inl rfl
    | false => exact .inr ⟨a, s.reg rs, storedAddress_sw.2 ⟨haddr, isIo_eq_false_iff.1 hio⟩, rfl⟩

/-- A DMem word at another address than the stored one is as before. -/
theorem Effect.dmem_get_of_not_stored (h : Effect s i t) {b : Nat}
    (hb : ∀ a, storedAddress i s = some a → b ≠ a.toNat) : t.dmem.get b = s.dmem.get b := by
  rcases h.dmem_stored with hd | ⟨a, v, ha, hd⟩
  · rw [hd]
  · rw [hd, Memory.get_put_other _ _ (hb a ha)]

end

/-! ### The statements -/

/-- Settles O43, from the effect of the instruction. -/
theorem onlyTheStoredWordChanges : Obligations.OnlyTheStoredWordChanges := by
  intro i s t h
  have he := exec_effect h
  refine ⟨fun a ha b hb => he.dmem_get_of_not_stored fun c hc => ?_,
    fun hnone b => he.dmem_get_of_not_stored fun c hc => ?_, fun p => by rw [he.imem], he.cfg⟩
  · cases ha.symm.trans hc
    exact hb
  · cases hnone.symm.trans hc

/-- Settles O51: the store leaves the parameters, so the load decodes the same address and finds the word there. -/
theorem storeThenLoadReturnsTheWord : Obligations.StoreThenLoadReturnsTheWord := by
  intro rs rd imm s a hr haddr ha
  have hstore := execSw_decoded hr haddr
  rw [memWrite_eq_setDMem ha] at hstore
  have hvalue : (s.setDMem a (s.reg rs)).advance.dmemValue a = some (s.reg rs) := by
    rw [State.advance_dmemValue, State.dmemValue_setDMem_same]
  exact ⟨_, _, hstore, execLw_dmem haddr ha hvalue, by simp, rfl⟩

end Sys2Proof.Machine
end

section
/-! Decoding and encoding as inverses of each other (spec/30_encoding.md R73, R74, R83), and the rows of the opcode table a word
matches (R84). -/

namespace Sys2Proof

open Sys2Proof.Claims

/-! ### The fields a reserved word is told by -/

theorem isReservedWord_iff {w : Word} :
    IsReservedWord w ↔ opcodeField w = 0b000#3 ∧ functField w ∈ oneSourceFuncts ∧ rtField w ≠ 0b000#3 := Iff.rfl

theorem functField_of_parts {w : Word} {b : Bool} {v : BitVec 3} (hb : (functField w).getLsbD 3 = b)
    (hv : (functField w).extractLsb' 0 3 = v) : functField w = BitVec.ofBool b ++ v := by
  rw [funct_of_parts (functField w), hb, hv]

/-! ### Decoding a built word -/

section
variable (u : UnaryRt) (rs rt rd : Reg) (f : BitVec 4)

theorem decode_rrrWord : decode u (rrrWord rs rt rd f) = decodeRrr u (rrrWord rs rt rd f) := by
  simp [decode]

/-- A one-source word with the Rt field 000 is read under either setting of UNARY_RT (R74). -/
theorem decodeOneSource_of_rt_zero {w : Word} (i : Instr) (h : rtField w = 0) : decodeOneSource u w i = .instr i := by
  simp [decodeOneSource, h]

/-- R83, R140: an instruction's word decodes to the machine instruction it stands for. -/
theorem decode_encode (i : Instr) : decode u (encode i) = .instr i.expand := by
  cases i with
  | add | sub | and | or | nand | xor | mul | slt | sgt | not | mov =>
    rw [encode, decode_rrrWord]
    simp [decodeRrr, Instr.expand]
  | inc | dec | shfl | shfr | sll | srr | sra =>
    rw [encode, decode_rrrWord]
    simp [decodeRrr, decodeOneSource_of_rt_zero, Instr.expand]
  | addi | subi | beq | nop | jmp | lw | sw | jnz | li => simp [encode, decode, Instr.expand]

end

/-- A machine instruction stands for itself (R140). -/
theorem Instr.expand_of_wellFormed {i : Instr} (h : i.wellFormed = true) : i.expand = i := by
  cases i with
  | not | mov | nop | jmp => cases h
  | _ => rfl

/-! ### What the decoder answers to a word -/

/-- How the decoder's answer reads a word: as an instruction with that very word; or, where R74 reserves the word, under
UNARY_RT = ignore as the one-source instruction whose word has 000 in the Rt field, and under UNARY_RT = fault not at all. -/
inductive Reading (u : UnaryRt) (w : Word) : Decoded → Prop where
  | exact {i : Instr} (hfree : ¬ IsReservedWord w) (hword : encode i = w) : Reading u w (.instr i)
  | rtIgnored {i : Instr} (hset : u = .ignore) (hres : IsReservedWord w)
      (hword : encode i = rrrWord (rsField w) 0 (rdField w) (functField w))
      (hmask : (opRow (disassemble i).op).mask = 0xE38F#16) : Reading u w (.instr i)
  | refused (hset : u = .fault) (hres : IsReservedWord w) : Reading u w (.reservedEncoding w)

section
variable {u : UnaryRt} {w : Word} {i : Instr} {f : BitVec 4}

theorem not_isReservedWord_of_opcode (ho : opcodeField w ≠ 0b000#3) : ¬ IsReservedWord w := fun h => ho h.1

theorem reading_twoSource (ho : opcodeField w = 0b000#3) (hf : functField w = f) (htwo : f ∉ oneSourceFuncts)
    (hword : encode i = rrrWord (rsField w) (rtField w) (rdField w) f) : Reading u w (.instr i) := by
  subst hf
  refine .exact (fun hres => ?_) (hword.trans (rrrWord_of_fields w ho))
  obtain ⟨-, hone, -⟩ := isReservedWord_iff.1 hres
  exact htwo hone

theorem reading_decodeOneSource (ho : opcodeField w = 0b000#3) (hf : functField w = f) (hone : f ∈ oneSourceFuncts)
    (hword : encode i = rrrWord (rsField w) 0 (rdField w) f)
    (hmask : (opRow (disassemble i).op).mask = 0xE38F#16) : Reading u w (decodeOneSource u w i) := by
  subst hf
  by_cases hrt : rtField w = 0
  · have hfree : ¬ IsReservedWord w := fun hres => hres.2.2 hrt
    rw [decodeOneSource_of_rt_zero u i hrt]
    rw [← hrt, rrrWord_of_fields w ho] at hword
    exact .exact hfree hword
  · have hres : IsReservedWord w := isReservedWord_iff.2 ⟨ho, hone, hrt⟩
    cases u with
    | fault =>
      rw [decodeOneSource, if_pos ⟨hrt, rfl⟩]
      exact .refused rfl hres
    | ignore =>
      rw [decodeOneSource, if_neg fun hset => UnaryRt.noConfusion hset.2]
      exact .rtIgnored rfl hres hword hmask

theorem reading_decodeRrr (ho : opcodeField w = 0b000#3) : Reading u w (decodeRrr u w) := by
  unfold decodeRrr
  dsimp only
  split
  case h_1 | h_3 | h_5 | h_6 | h_7 | h_8 | h_14 | h_15 | h_16 =>
    rename_i hb hv
    exact reading_twoSource ho (functField_of_parts hb hv) (by decide) rfl
  case h_2 | h_4 | h_9 | h_10 | h_11 | h_12 | h_13 =>
    rename_i hb hv
    exact reading_decodeOneSource ho (functField_of_parts hb hv) (by decide) rfl rfl

/-- The decoder's answer to any word: by the opcode, and in the RRR group by the Funct. -/
theorem reading_decode (u : UnaryRt) (w : Word) : Reading u w (decode u w) := by
  unfold decode
  dsimp only
  split
  case h_1 ho => exact reading_decodeRrr ho
  case h_2 ho | h_3 ho | h_4 ho =>
    refine .exact (not_isReservedWord_of_opcode (by simp [ho])) ?_
    rw [encode, ← ho, rriWord_of_fields]
  case h_5 ho | h_6 ho | h_7 ho | h_8 ho =>
    refine .exact (not_isReservedWord_of_opcode (by simp [ho])) ?_
    rw [encode, ← ho, riWord_of_fields]

/-- R83: a word that is not reserved decodes to an instruction with that word. -/
theorem decode_of_not_reserved (u : UnaryRt) (h : ¬ IsReservedWord w) : ∃ i, decode u w = .instr i ∧ encode i = w := by
  have hread := reading_decode u w
  generalize decode u w = d at hread ⊢
  cases hread with
  | exact _ hword => exact ⟨_, rfl, hword⟩
  | rtIgnored _ hres | refused _ hres => exact absurd hres h

/-- R74: the reserved words are refused under UNARY_RT = fault. -/
theorem decode_fault_of_reserved (h : IsReservedWord w) : decode .fault w = .reservedEncoding w := by
  have hread := reading_decode .fault w
  generalize decode .fault w = d at hread ⊢
  cases hread with
  | exact hfree => exact absurd h hfree
  | rtIgnored hset => cases hset
  | refused => rfl

/-- R74: no other word is refused, and none under UNARY_RT = ignore. -/
theorem reserved_of_decode_reserved {v : Word} (h : decode u w = .reservedEncoding v) : u = .fault ∧ IsReservedWord w := by
  have hread := reading_decode u w
  rw [h] at hread
  cases hread with
  | refused hset hres => exact ⟨hset, hres⟩

/-- An instruction read under UNARY_RT = fault has the word it was read from. -/
theorem encode_of_decode_fault (h : decode .fault w = .instr i) : encode i = w := by
  have hread := reading_decode .fault w
  rw [h] at hread
  cases hread with
  | exact _ hword => exact hword
  | rtIgnored hset => cases hset

/-- Under UNARY_RT = ignore every word is read. -/
theorem exists_decode_ignore (w : Word) : ∃ i, decode .ignore w = .instr i := by
  cases h : decode .ignore w with
  | instr i => exact ⟨i, rfl⟩
  | reservedEncoding v =>
    obtain ⟨hset, -⟩ := reserved_of_decode_reserved h
    cases hset

/-! ### The rows of the opcode table a word matches -/

theorem OpRow.matchesWord_iff {r : OpRow} : r.matchesWord w = true ↔ w &&& r.mask = r.pattern := by
  simp [OpRow.matchesWord]

/-- R84: an instruction's word matches its mnemonic's row. -/
theorem opRow_matches_encode (i : Instr) : (opRow (disassemble i).op).matchesWord (encode i) = true := by
  cases i with
  | add => exact Laws.TableRow.add ..
  | inc => exact Laws.TableRow.inc ..
  | sub => exact Laws.TableRow.sub ..
  | dec => exact Laws.TableRow.dec ..
  | and => exact Laws.TableRow.and ..
  | or => exact Laws.TableRow.or ..
  | nand => exact Laws.TableRow.nand ..
  | xor => exact Laws.TableRow.xor ..
  | shfl => exact Laws.TableRow.shfl ..
  | shfr => exact Laws.TableRow.shfr ..
  | sll => exact Laws.TableRow.sll ..
  | srr => exact Laws.TableRow.srr ..
  | sra => exact Laws.TableRow.sra ..
  | mul => exact Laws.TableRow.mul ..
  | slt => exact Laws.TableRow.slt ..
  | sgt => exact Laws.TableRow.sgt ..
  | addi => exact Laws.TableRow.addi ..
  | subi => exact Laws.TableRow.subi ..
  | beq => exact Laws.TableRow.beq ..
  | lw => exact Laws.TableRow.lw ..
  | sw => exact Laws.TableRow.sw ..
  | jnz => exact Laws.TableRow.jnz ..
  | li => exact Laws.TableRow.li ..
  | not => exact Laws.TableRow.not ..
  | mov => exact Laws.TableRow.mov ..
  | nop => exact Laws.TableRow.nop ..
  | jmp => exact Laws.TableRow.jmp ..

theorem op_mem_machineMnemonics (h : i.wellFormed = true) : (disassemble i).op ∈ machineMnemonics := by
  cases i with
  | not | mov | nop | jmp => cases h
  | _ => simp [disassemble, machineMnemonics]

/-- A row's pattern keeps within its mask of UNARY_RT = ignore: the Rt bits of a one-source row's pattern are 000. -/
theorem opRow_pattern_and_ignore_mask (m : Mnemonic) :
    (opRow m).pattern &&& (ignoreRtRow (opRow m)).mask = (opRow m).pattern := by
  cases m <;> rfl

/-- The mask of UNARY_RT = ignore keeps a part of the row's own mask. -/
theorem opRow_mask_and_ignore_mask (m : Mnemonic) :
    (opRow m).mask &&& (ignoreRtRow (opRow m)).mask = (ignoreRtRow (opRow m)).mask := by
  cases m <;> rfl

theorem ignoreRtRow_pattern (r : OpRow) : (ignoreRtRow r).pattern = r.pattern := by
  unfold ignoreRtRow
  split <;> rfl

theorem ignoreRtRow_mask_of_oneSource {r : OpRow} (h : r.mask = 0xE38F#16) : (ignoreRtRow r).mask = 0xE00F#16 := by
  simp [ignoreRtRow, h]

/-- A word that matches a row matches it under UNARY_RT = ignore too. -/
theorem ignoreRtRow_matches_of_matches {m : Mnemonic} (h : (opRow m).matchesWord w = true) :
    (ignoreRtRow (opRow m)).matchesWord w = true := by
  rw [OpRow.matchesWord_iff] at h ⊢
  rw [ignoreRtRow_pattern, ← opRow_mask_and_ignore_mask, ← BitVec.and_assoc, h, opRow_pattern_and_ignore_mask]

/-- Two machine rows whose patterns agree where both masks look are one row, even under UNARY_RT = ignore. -/
theorem machine_rows_disjoint : ∀ m ∈ machineMnemonics, ∀ m' ∈ machineMnemonics,
    (opRow m).pattern &&& (ignoreRtRow (opRow m')).mask = (opRow m').pattern &&& (ignoreRtRow (opRow m)).mask →
    m = m' := by
  decide

/-- Under UNARY_RT = ignore a word matches at most one machine row. -/
theorem eq_of_ignoreRtRow_matches {m m' : Mnemonic} (hm : m ∈ machineMnemonics) (hm' : m' ∈ machineMnemonics)
    (h : (ignoreRtRow (opRow m)).matchesWord w = true) (h' : (ignoreRtRow (opRow m')).matchesWord w = true) :
    m = m' := by
  rw [OpRow.matchesWord_iff, ignoreRtRow_pattern] at h h'
  refine machine_rows_disjoint m hm m' hm' ?_
  rw [← h, ← h', BitVec.and_assoc, BitVec.and_assoc, BitVec.and_comm (ignoreRtRow (opRow m)).mask]

/-- A reserved word is the RRR word of its fields. -/
theorem rrrWord_of_reserved (h : IsReservedWord w) :
    rrrWord (rsField w) (rtField w) (rdField w) (functField w) = w :=
  rrrWord_of_fields w (isReservedWord_iff.1 h).1

/-- Under UNARY_RT = ignore a word matches the row of the instruction it decodes to. -/
theorem ignoreRtRow_matches_of_decode (h : decode .ignore w = .instr i) :
    (ignoreRtRow (opRow (disassemble i).op)).matchesWord w = true := by
  have hrow := ignoreRtRow_matches_of_matches (opRow_matches_encode i)
  have hread := reading_decode .ignore w
  rw [h] at hread
  cases hread with
  | exact _ hword => rwa [hword] at hrow
  | rtIgnored _ hres hword hmask =>
    rw [OpRow.matchesWord_iff, ignoreRtRow_mask_of_oneSource hmask] at hrow ⊢
    rw [← hrow, hword, rrrWord_mask, ← rrrWord_of_reserved hres, rrrWord_mask, functField_rrrWord]

/-- The mask of the one-source rows shows the Rt field. -/
theorem rtField_and_oneSource_mask (w : Word) : rtField (w &&& 0xE38F#16) = rtField w := by
  unfold rtField
  ext i h
  interval_cases i <;> simp

/-- R74, R84: a reserved word matches no machine row, because the one it could match asks for 000 in the Rt field. -/
theorem not_matches_of_reserved (h : IsReservedWord w) {m : Mnemonic} (hm : m ∈ machineMnemonics) :
    (opRow m).matchesWord w = false := by
  by_contra hrow
  rw [Bool.not_eq_false] at hrow
  obtain ⟨i, hi⟩ := exists_decode_ignore w
  have hop : m = (disassemble i).op :=
    eq_of_ignoreRtRow_matches hm (op_mem_machineMnemonics (wellFormed_of_decode hi))
      (ignoreRtRow_matches_of_matches hrow) (ignoreRtRow_matches_of_decode hi)
  have hread := reading_decode .ignore w
  rw [hi] at hread
  cases hread with
  | exact hfree => exact hfree h
  | rtIgnored _ _ hword hmask =>
    have hencode := opRow_matches_encode i
    rw [hop] at hrow
    rw [OpRow.matchesWord_iff, hmask] at hrow hencode
    have hrt : rtField w = 0 := by
      rw [← rtField_and_oneSource_mask, hrow, ← hencode, rtField_and_oneSource_mask, hword, rtField_rrrWord]
    exact (isReservedWord_iff.1 h).2.2 hrt

/-- R84: a word that is not reserved matches exactly one machine row. -/
theorem existsUnique_row_of_not_reserved (h : ¬ IsReservedWord w) :
    ∃! m, m ∈ machineMnemonics ∧ (opRow m).matchesWord w = true := by
  obtain ⟨i, hi, rfl⟩ := decode_of_not_reserved .fault h
  have hmem := op_mem_machineMnemonics (wellFormed_of_decode hi)
  have hrow := opRow_matches_encode i
  exact ⟨_, ⟨hmem, hrow⟩, fun m ⟨hm, hmrow⟩ => eq_of_ignoreRtRow_matches hm hmem
    (ignoreRtRow_matches_of_matches hmrow) (ignoreRtRow_matches_of_matches hrow)⟩

/-- R84: with the masks of UNARY_RT = ignore every word matches exactly one machine row. -/
theorem existsUnique_ignoreRtRow (w : Word) :
    ∃! m, m ∈ machineMnemonics ∧ (ignoreRtRow (opRow m)).matchesWord w = true := by
  obtain ⟨i, hi⟩ := exists_decode_ignore w
  have hmem := op_mem_machineMnemonics (wellFormed_of_decode hi)
  have hrow := ignoreRtRow_matches_of_decode hi
  exact ⟨_, ⟨hmem, hrow⟩, fun m ⟨hm, hmrow⟩ => eq_of_ignoreRtRow_matches hm hmem hmrow hrow⟩

/-- Under UNARY_RT = fault a word matches the row of the instruction it decodes to. -/
theorem opRow_matches_of_decode (h : decode .fault w = .instr i) : (opRow (disassemble i).op).matchesWord w = true := by
  rw [← encode_of_decode_fault h]
  exact opRow_matches_encode i

end

/-! ### Assembly lines -/

/-- R79: a field's unsigned value is accepted and stored as that field. -/
@[simp] theorem immField_toNat {N : Nat} (v : BitVec N) : immField N v.toNat = some v := by
  have hlow : -(2 ^ (N - 1) : Int) ≤ v.toNat := by
    have : (0 : Int) ≤ 2 ^ (N - 1) := by positivity
    omega
  have hhigh : (v.toNat : Int) < 2 ^ N := by exact_mod_cast v.isLt
  rw [immField, if_pos ⟨hlow, hhigh⟩, BitVec.ofInt_natCast, BitVec.ofNat_toNat, BitVec.setWidth_eq]

/-- The line of an instruction shows all of it, but for the register of nop and jmp (R80, D22). -/
theorem assemble_disassemble {i : Instr} (hnop : ∀ rs, i = .nop rs → rs = 0) (hjmp : ∀ rs imm, i = .jmp rs imm → rs = 0) :
    assemble (disassemble i) = some i := by
  cases i with
  | addi | subi | beq | lw | sw | jnz | li => simp [assemble, disassemble]
  | nop rs =>
    rw [hnop rs rfl]
    rfl
  | jmp rs imm =>
    rw [hjmp rs imm rfl]
    simp [assemble, disassemble]
  | _ => rfl

/-! ### The statements -/

/-- Settles O3. -/
theorem encodedInstructionDecodesBack : Obligations.EncodedInstructionDecodesBack :=
  fun u i => ⟨decode_encode u i, Instr.expand_of_wellFormed⟩

/-- Settles O4, by the reading of the word. -/
theorem decodedWordEncodesBack : Obligations.DecodedWordEncodesBack := fun u _ h => decode_of_not_reserved u h

/-- Settles O5. -/
theorem decoderAnswersMachineInstructions : Obligations.DecoderAnswersMachineInstructions :=
  fun _ _ _ h => wellFormed_of_decode h

/-- Settles O6, by the reading of the word. -/
theorem onlyReservedWordsAreRefused : Obligations.OnlyReservedWordsAreRefused := by
  intro u w v
  constructor
  · intro h
    obtain ⟨hset, hres⟩ := reserved_of_decode_reserved h
    exact ⟨hset, eq_of_decode_reserved h, hres⟩
  · rintro ⟨rfl, rfl, hres⟩
    exact decode_fault_of_reserved hres

/-- Settles O7: some row matches by the instruction the word decodes to, and only one because the rows are disjoint. -/
theorem tableRowsPartitionTheWords : Obligations.TableRowsPartitionTheWords :=
  fun w => ⟨fun h _ hm => not_matches_of_reserved h hm, existsUnique_row_of_not_reserved, existsUnique_ignoreRtRow w,
    fun _ => opRow_matches_of_decode, fun _ => ignoreRtRow_matches_of_decode⟩

/-- Settles O8: of the lines allowed, those of nop and jmp stand for register 0. -/
theorem assemblyLineReadsBack : Obligations.AssemblyLineReadsBack := by
  intro i h
  apply assemble_disassemble
  · rintro rs rfl
    simpa [Instr.wellFormed] using h
  · rintro rs imm rfl
    simpa [Instr.wellFormed] using h

/-- Settles O2: the decoder is run on each word. -/
theorem decodesWordsOfTheSpec : Obligations.DecodesWordsOfTheSpec := by
  unfold Obligations.DecodesWordsOfTheSpec
  decide

end Sys2Proof
end

section
/-! The two-source RRR instructions and, nand, slt and sgt (spec/40_rrr_register_ops.md R100, R105, R107, R115, R116). -/

namespace Sys2Proof.Machine

open Sys2Proof.Claims

section
variable {s : State} {rd rs rt : Reg}

/-! ### The shape of a two-source instruction -/

/-- Writing a register and falling through is all that `WritesReg` allows, for an instruction that performs no I/O. -/
theorem writesReg_setReg_advance {r : Reg} {v : Word} {P : Word → Prop} (hv : P v) :
    WritesReg s (s.setReg r v).advance r P [] := by
  have hothers : ∀ q, q ≠ r → (s.setReg r v).advance.cell q = s.cell q :=
    fun q hq => State.setReg_cell_other s r q v hq
  exact ⟨by simpa using hv, by simp, hothers, rfl, ⟨fun _ => rfl, fun _ => rfl⟩, by simp, rfl⟩

/-- Rs is read first, so its fault hides one of Rt (spec/60_exceptions.md R153). -/
theorem binaryOp_rs_unreadable {g : Word → Word → Word} (hrs : s.readable rs = false) :
    binaryOp g rd rs rt s = .fault (.uninitRead (.reg rs)) :=
  binaryOp_fault.2 (.inr ⟨hrs, rfl⟩)

theorem binaryOp_rt_unreadable {g : Word → Word → Word} (hrs : s.readable rs = true) (hrt : s.readable rt = false) :
    binaryOp g rd rs rt s = .fault (.uninitRead (.reg rt)) :=
  binaryOp_fault.2 (.inl ⟨hrs, hrt, rfl⟩)

/-- R100: an RRR instruction that computes by `binaryOp` obeys the two-source rule, for any description of its result that
its operator meets under every setting of the parameters. -/
theorem twoSourceRule_of_binaryOp {op : Mnemonic} {mk : Reg → Reg → Reg → Instr} (funct : BitVec 4)
    (g : Config → Word → Word → Word) {result : Config → Word → Word → Word → Prop}
    (hline : ∀ rd rs rt, assemble { op := op, args := [.reg rd, .reg rs, .reg rt] } = some (mk rd rs rt))
    (hword : ∀ rd rs rt, encode (mk rd rs rt) = rrrWord rs rt rd funct)
    (hexec : ∀ rd rs rt s, exec (mk rd rs rt) s = binaryOp (g s.cfg) rd rs rt s)
    (hresult : ∀ c a b, result c a b (g c a b)) : TwoSourceRule op mk funct.toNat result := by
  intro rd rs rt
  refine ⟨hline rd rs rt, by rw [hword, rrrWord_toNat], fun s => ?_⟩
  rw [hexec]
  exact ⟨fun hrs hrt => ⟨_, binaryOp_readable hrs hrt, writesReg_setReg_advance (hresult _ _ _)⟩,
    binaryOp_rs_unreadable, binaryOp_rt_unreadable⟩

/-! ### The operators -/

theorem aluAnd_getLsbD (a b : Word) (i : Nat) : (aluAnd a b).getLsbD i = (a.getLsbD i && b.getLsbD i) :=
  BitVec.getLsbD_and

theorem aluNand_getLsbD (a b : Word) {i : Nat} (hi : i < 16) :
    (aluNand a b).getLsbD i = !(a.getLsbD i && b.getLsbD i) := by
  simp [aluNand, hi]

/-- Under either setting of CMP_SIGNED, `a > b` is `b < a` (R116). -/
theorem greaterSignal_eq_lessSignal_swap (c : Config) (a b : Word) : greaterSignal c a b = lessSignal c b a := rfl

theorem exec_slt_readable (hrs : s.readable rs = true) (hrt : s.readable rt = true) :
    exec (.slt rd rs rt) s =
      .next (s.setReg rd (signalWord (lessSignal s.cfg (s.reg rs) (s.reg rt)))).advance :=
  binaryOp_readable (g := fun a b => signalWord (lessSignal s.cfg a b)) hrs hrt

theorem exec_sgt_readable (hrs : s.readable rs = true) (hrt : s.readable rt = true) :
    exec (.sgt rd rs rt) s =
      .next (s.setReg rd (signalWord (greaterSignal s.cfg (s.reg rs) (s.reg rt)))).advance :=
  binaryOp_readable (g := fun a b => signalWord (greaterSignal s.cfg a b)) hrs hrt

end

/-! ### The statements -/

/-- Settles O15: both instructions have the two-source shape, and the bits of their results are those of the operators. -/
theorem andNandRules : Obligations.AndNandRules := by
  constructor
  · exact twoSourceRule_of_binaryOp 0b0100#4 (fun _ => aluAnd) (fun _ _ _ => rfl) (fun _ _ _ => rfl)
      (fun _ _ _ _ => rfl) fun _ a b i _ => aluAnd_getLsbD a b i
  · exact twoSourceRule_of_binaryOp 0b0110#4 (fun _ => aluNand) (fun _ _ _ => rfl) (fun _ _ _ => rfl)
      (fun _ _ _ _ => rfl) fun _ a b _ hi => aluNand_getLsbD a b hi

/-- Settles O21: the two comparison signals are one signal with its operands swapped. -/
theorem sgtIsSltSwapped : Obligations.SgtIsSltSwapped := by
  intro rd rs rt s hrs hrt
  refine ⟨_, exec_sgt_readable hrs hrt, ?_⟩
  rw [greaterSignal_eq_lessSignal_swap]
  exact exec_slt_readable hrt hrs

end Sys2Proof.Machine
end

section
/-! The pseudo-instructions are the machine instructions they are spelled with (spec/43_pseudo_instructions.md R140 to R142). -/

namespace Sys2Proof

/-! ### An instruction and its expansion (R140) -/

/-- The expansion is what the decoder reads in the instruction's word, and the decoder reads machine instructions alone. -/
theorem Instr.expand_wellFormed (i : Instr) : i.expand.wellFormed = true :=
  wellFormed_of_decode (decode_encode .fault i)

theorem encode_expand (i : Instr) : encode i.expand = encode i :=
  encode_of_decode_fault (decode_encode .fault i)

namespace Machine

open Sys2Proof.Claims

theorem exec_expand (i : Instr) (s : State) : exec i.expand s = exec i s := by
  cases i with
  | not | mov | nop | jmp => rfl
  | _ => rw [Instr.expand_of_wellFormed rfl]

/-! ### A two-source instruction whose source fields hold the same register -/

section
variable {s t : State} {rd rs : Reg}

theorem writesReg_mono {P Q : Word → Prop} {events : List IoEvent} (hPQ : ∀ v, P v → Q v)
    (h : WritesReg s t rd P events) : WritesReg s t rd Q events := by
  obtain ⟨hresult, hframe⟩ := h
  exact ⟨hPQ _ hresult, hframe⟩

/-- A pseudo-instruction that expands to a two-source instruction of one register twice completes or faults by that register
alone, and its result is the operator's with both operands equal. -/
theorem exec_of_expand_twoSource {op : Mnemonic} {mk : Reg → Reg → Reg → Instr} {funct : Nat}
    {result : Config → Word → Word → Word → Prop} {i : Instr} {P : Word → Prop} (hrule : TwoSourceRule op mk funct result)
    (hexpand : i.expand = mk rd rs rs) (hP : ∀ v, result s.cfg (s.reg rs) (s.reg rs) v → P v) :
    (s.readable rs = true → ∃ t, exec i s = .next t ∧ WritesReg s t rd P []) ∧
    (s.readable rs = false → exec i s = .fault (.uninitRead (.reg rs))) := by
  obtain ⟨-, -, heffect⟩ := hrule rd rs rs
  obtain ⟨hnext, hfault, -⟩ := heffect s
  rw [← exec_expand, hexpand]
  refine ⟨fun hr => ?_, hfault⟩
  obtain ⟨t, ht, hwrites⟩ := hnext hr hr
  exact ⟨t, ht, writesReg_mono hP hwrites⟩

theorem encode_toNat_of_expand_twoSource {op : Mnemonic} {mk : Reg → Reg → Reg → Instr} {funct : Nat}
    {result : Config → Word → Word → Word → Prop} {i : Instr} (hrule : TwoSourceRule op mk funct result)
    (hexpand : i.expand = mk rd rs rs) :
    (encode i).toNat = rs.toNat * 2 ^ 10 + rs.toNat * 2 ^ 7 + rd.toNat * 2 ^ 4 + funct := by
  obtain ⟨-, hword, -⟩ := hrule rd rs rs
  rw [← encode_expand, hexpand, hword]

/-- The bits of `a & a` are those of a. -/
theorem eq_of_getLsbD_and_self {a v : Word} (h : ∀ i, i < 16 → v.getLsbD i = (a.getLsbD i && a.getLsbD i)) : v = a :=
  BitVec.eq_of_getLsbD_eq fun i hi => by rw [h i hi, Bool.and_self]

end

/-! ### The statements -/

/-- Settles O34, by decoding the instruction's word for the first two parts. -/
theorem pseudoInstructionsAreTheirExpansions : Obligations.PseudoInstructionsAreTheirExpansions :=
  fun i => ⟨Instr.expand_wellFormed i, encode_expand i, exec_expand i⟩

/-- Settles O31: the rules of nand and and, read through the expansions with both operands equal. -/
theorem notMovRules : Obligations.NotMovRules := by
  intro rd rs
  obtain ⟨hand, hnand⟩ := andNandRules
  have hnot : (Instr.not rd rs).expand = .nand rd rs rs := rfl
  have hmov : (Instr.mov rd rs).expand = .and rd rs rs := rfl
  refine ⟨rfl, rfl, encode_toNat_of_expand_twoSource hnand hnot, encode_toNat_of_expand_twoSource hand hmov,
    fun s => ⟨?_, ?_⟩, fun s => ?_⟩
  · rw [← exec_expand, hnot]
  · rw [← exec_expand, hmov]
  · obtain ⟨hnotNext, hnotFault⟩ := exec_of_expand_twoSource (s := s)
      (P := fun v => ∀ i, i < 16 → v.getLsbD i = !(s.reg rs).getLsbD i) hnand hnot
      fun v hv i hi => by rw [hv i hi, Bool.and_self]
    obtain ⟨hmovNext, hmovFault⟩ := exec_of_expand_twoSource (s := s) (P := fun v => v = s.reg rs) hand hmov
      fun v hv => eq_of_getLsbD_and_self hv
    exact ⟨fun hr => ⟨hnotNext hr, hmovNext hr⟩, fun hr => ⟨hnotFault hr, hmovFault hr⟩⟩

end Machine

end Sys2Proof
end

section
/-! The data memory, the I/O history and the pc over an instruction and over a run (spec/20_memory.md R44, R53, R58;
spec/10_state.md R27). -/

namespace Sys2Proof.Machine

open Sys2Proof.Claims

section
variable {s t : State} {i : Instr} {a : DAddr} {v : Word}

/-! ### One instruction -/

/-- A DMem word keeps its value over an instruction that does not store to it. -/
theorem Effect.dmem_get_of_storedAddress_ne (h : Effect s i t) (ha : storedAddress i s ≠ some a) :
    t.dmem.get a.toNat = s.dmem.get a.toNat :=
  h.dmem_get_of_not_stored fun b hb e => ha (by rw [hb, BitVec.eq_of_toNat_eq e])

theorem ioEvents_of_dataAddress_none (h : dataAddress i s = none) : ioEvents i s = [] := by
  unfold ioEvents
  rw [h]
  split <;> simp_all

/-- The history after an instruction is the old one with the instruction's events appended (R58). -/
theorem Effect.io_eq (h : Effect s i t) : t.io = s.io ++ ioEvents i s := by
  cases h with
  | compute v _ haddr | branch _ haddr => simp [ioEvents_of_dataAddress_none haddr]
  | loadDMem haddr hio => simp [ioEvents, dataAddress, haddr, isIo_eq_false_iff.1 hio]
  | loadIo haddr hio => simp [ioEvents, dataAddress, haddr, (isIo_iff _).1 hio]
  | @store _ _ a haddr =>
    rw [State.advance_io, memWrite_io]
    cases hio : isIo a with
    | true => simp [ioEvents, dataAddress, haddr, (isIo_iff a).1 hio]
    | false => simp [ioEvents, dataAddress, haddr, isIo_eq_false_iff.1 hio]

/-! ### A run -/

theorem step_keeps_unstored_word (h : step s = .next t)
    (hfree : ∀ i, s.current = some i → storedAddress i s ≠ some a) : t.dmem.get a.toNat = s.dmem.get a.toNat := by
  obtain ⟨i, hi, h⟩ := step_next.1 h
  exact (exec_effect h).dmem_get_of_storedAddress_ne (hfree i hi)

/-- A DMem word keeps its value over a run none of whose instructions stores to it (R53). -/
theorem run_keeps_unstored_word {k : Nat} (h : run k s = .next t)
    (hfree : ∀ j, j < k → ∀ u, run j s = .next u → ∀ i, u.current = some i → storedAddress i u ≠ some a) :
    t.dmem.get a.toNat = s.dmem.get a.toNat := by
  induction k generalizing s with
  | zero =>
    cases h
    rfl
  | succ k ih =>
    obtain ⟨u, hu, h⟩ := run_succ_next.1 h
    have hhead : u.dmem.get a.toNat = s.dmem.get a.toNat :=
      step_keeps_unstored_word hu (hfree 0 (Nat.succ_pos k) s rfl)
    have htail : t.dmem.get a.toNat = u.dmem.get a.toNat :=
      ih h fun j hj w hw => hfree (j + 1) (Nat.succ_lt_succ hj) w (run_succ_next.2 ⟨u, hu, hw⟩)
    rw [htail, hhead]

/-- A stored DMem word is what its cell reads as, under either setting of UNINIT (spec/10_state.md R37). -/
theorem State.dmemValue_of_get (h : s.dmem.get a.toNat = some v) : s.dmemValue a = some v := by
  simp [State.dmemValue_eq, h]

end

/-! ### The statements -/

/-- Settles O52: by induction on the run the word is still there at the end, and an lw there loads it. -/
theorem loadSeesTheLatestStore : Obligations.LoadSeesTheLatestStore := by
  intro k s t a v hv hrun hfree
  have hkept : t.dmem.get a.toNat = some v := (run_keeps_unstored_word hrun hfree).trans hv
  refine ⟨hkept, fun rd imm ha haddr => ?_⟩
  exact ⟨_, execLw_dmem haddr ha (State.dmemValue_of_get hkept), by simp, rfl⟩

/-- Settles O44, from the effect of the instruction. -/
theorem ioEventsInProgramOrder : Obligations.IoEventsInProgramOrder :=
  fun _ _ _ h => (exec_effect h).io_eq

/-- Settles O45, from the effect of the instruction. -/
theorem sequentialAdvance : Obligations.SequentialAdvance :=
  fun _ _ _ h => (exec_effect h).pc

end Sys2Proof.Machine
end

section
/-! Immediates: the integers a field accepts (spec/30_encoding.md R79), and sign and zero extension in the operations of the
library (spec/00_scope.md R10). -/

namespace Sys2Proof

/-! ### Fields of an assembly line -/

theorem immField_of_range {N : Nat} {n : Int} (hlow : -(2 ^ (N - 1) : Int) ≤ n) (hhigh : n < 2 ^ N) :
    immField N n = some (BitVec.ofInt N n) :=
  if_pos ⟨hlow, hhigh⟩

/-- A line with an integer in range stands for the instruction with the stored field. -/
theorem assemble_of_immField {N : Nat} {n : Int} {l : AsmLine} (mk : BitVec N → Instr)
    (hline : assemble l = (immField N n).map mk) (hlow : -(2 ^ (N - 1) : Int) ≤ n) (hhigh : n < 2 ^ N) :
    assemble l = some (mk (BitVec.ofInt N n)) := by
  rw [hline, immField_of_range hlow hhigh, Option.map_some]

theorem immField_isSome {N : Nat} {n : Int} :
    (immField N n).isSome = true ↔ -(2 ^ (N - 1) : Int) ≤ n ∧ n < 2 ^ N := by
  unfold immField
  split <;> simp_all

/-- The stored field is n mod 2^N. -/
theorem toNat_of_immField {N : Nat} {n : Int} {v : BitVec N} (h : immField N n = some v) :
    (v.toNat : Int) = n % 2 ^ N := by
  unfold immField at h
  split at h
  · cases h
    have hnonneg : 0 ≤ n % (2 ^ N : Nat) := Int.emod_nonneg n (by positivity)
    rw [BitVec.toNat_ofInt, Int.toNat_of_nonneg hnonneg, Nat.cast_pow, Nat.cast_ofNat]
  · cases h

namespace Machine

/-! ### Extension -/

section
variable {n : Nat}

theorem sext_eq_signExtend (v : BitVec n) (h : n ≤ 16) : sext v = v.signExtend 16 := by
  apply BitVec.eq_of_toNat_eq
  have hv := v.isLt
  have hpow : 2 ^ n ≤ 2 ^ 16 := Nat.pow_le_pow_right (by decide) h
  rw [sext_toNat v h, BitVec.toNat_signExtend, BitVec.toNat_setWidth, BitVec.msb_eq_decide,
    Nat.mod_eq_of_lt (Nat.lt_of_lt_of_le hv hpow)]
  by_cases hsmall : v.toNat < 2 ^ (n - 1)
  · simp [hsmall]
  · simp only [hsmall, if_false, Nat.le_of_not_lt hsmall, decide_true, if_true]
    omega

/-- A sign-extended field has the field's signed value, modulo 65536. -/
theorem sext_eq_ofInt_toInt (v : BitVec n) (h : n ≤ 16) : sext v = BitVec.ofInt 16 v.toInt :=
  sext_eq_signExtend v h

theorem sext_getLsbD_low (v : BitVec n) (h : n ≤ 16) {i : Nat} (hi : i < n) : (sext v).getLsbD i = v.getLsbD i := by
  rw [sext_eq_signExtend v h, BitVec.getLsbD_signExtend]
  simp [hi, Nat.lt_of_lt_of_le hi h]

theorem sext_getLsbD_high (v : BitVec n) (h : n ≤ 16) {i : Nat} (hi : n ≤ i) (hi16 : i < 16) :
    (sext v).getLsbD i = v.getLsbD (n - 1) := by
  rw [sext_eq_signExtend v h, BitVec.getLsbD_signExtend, BitVec.msb_eq_getLsbD_last]
  simp [Nat.not_lt.2 hi, hi16]

end

/-- An immediate of lw or sw below 64 is its own sign extension, and no other immediate extends to less than 64. -/
theorem sext_imm10_toNat_of_lt {imm : Imm10} (h : imm.toNat < 64) : (sext imm).toNat = imm.toNat := by
  rw [sext_toNat imm (by decide), if_pos (by omega)]

theorem le_sext_imm10_toNat {imm : Imm10} (h : 64 ≤ imm.toNat) : 64 ≤ (sext imm).toNat := by
  rw [sext_toNat imm (by decide)]
  split <;> omega

end Machine

/-! ### The statements -/

/-- Settles O9, for fields of every width. -/
theorem assemblerImmediateRange : Obligations.AssemblerImmediateRange :=
  fun _ _ _ => ⟨immField_isSome, fun _ => toNat_of_immField⟩

/-- Settles O10, through the sign extension of the library. -/
theorem extensionPrimitives : Obligations.ExtensionPrimitives :=
  fun _ v _ h => ⟨fun _ => Machine.sext_getLsbD_low v h, fun _ => Machine.sext_getLsbD_high v h,
    Machine.sext_toNat v h, Machine.zext_toNat v h⟩

end Sys2Proof
end

section
/-! The data address decoder, lw and sw (spec/20_memory.md R42 to R47; spec/42_ri_memory_jump_li.md R130 to R132). -/

namespace Sys2Proof.Machine

open Sys2Proof.Claims

/-! ### The form of an RI instruction -/

theorem riForm_of_eq {op : Mnemonic} {mk : Reg → Imm10 → Instr} (opcode : BitVec 3)
    (hline : ∀ rs n, assemble { op := op, args := [.reg rs, .imm n] } = (immField 10 n).map (mk rs))
    (hword : ∀ rs imm, encode (mk rs imm) = riWord opcode rs imm) : RiForm op mk opcode.toNat := by
  intro rs imm
  exact ⟨fun n => assemble_of_immField (mk rs) (hline rs n), by rw [hword, riWord_toNat]⟩

/-! ### The decoder -/

/-- In a table of rising values each is listed once, so the lookup finds exactly the listed pairs. -/
theorem dadLookup_eq_some_iff {table : List (Word × DAddr)} (hrising : table.Pairwise fun p q => p.1.toNat < q.1.toNat)
    {v : Word} {a : DAddr} : dadLookup table v = some a ↔ (v, a) ∈ table := by
  induction table with
  | nil => simp [dadLookup]
  | cons p rest ih =>
    obtain ⟨k, b⟩ := p
    obtain ⟨hhead, hrest⟩ := List.pairwise_cons.1 hrising
    unfold dadLookup
    split
    · rename_i hk
      subst hk
      have hnot : (k, a) ∉ rest := fun hmem => Nat.lt_irrefl k.toNat (hhead (k, a) hmem)
      simp [hnot, eq_comm]
    · rename_i hk
      simp [ih hrest, Ne.symm hk]

theorem dad_outside {c : Config} {v : Word} (hv : 64 ≤ v.toNat) : dad c v = dadLookup c.dadExtra v :=
  if_neg (Nat.not_lt.2 hv)

theorem config_wellFormed_iff {c : Config} :
    c.wellFormed = true ↔
      c.resetPc.toNat < 64 ∧ (c.dadExtra.Pairwise fun p q => p.1.toNat < q.1.toNat) ∧
      ∀ p ∈ c.dadExtra, 64 ≤ p.1.toNat := by
  simp [Config.wellFormed, and_assoc]

theorem dad_eq_some_iff {c : Config} (hc : c.wellFormed = true) {v : Word} {a : DAddr} (hv : 64 ≤ v.toNat) :
    dad c v = some a ↔ (v, a) ∈ c.dadExtra := by
  obtain ⟨-, hrising, -⟩ := config_wellFormed_iff.1 hc
  rw [dad_outside hv, dadLookup_eq_some_iff hrising]

/-- R43: an immediate in 0..63 is its own data address, under every DAD. -/
theorem dad_imm_of_lt (c : Config) {imm : Imm10} (h : imm.toNat < 64) :
    dad c (sext imm) = some (BitVec.ofNat 6 imm.toNat) := by
  rw [dad_identity c (by rwa [sext_imm10_toNat_of_lt h]), sext_imm10_toNat_of_lt h]

theorem imm_toNat_dataAddress {imm : Imm10} (h : imm.toNat < 64) : (BitVec.ofNat 6 imm.toNat).toNat = imm.toNat :=
  Nat.mod_eq_of_lt h

/-- R43: the default DAD decodes no other immediate. -/
theorem dad_imm_of_le {c : Config} (hc : c.dadExtra = []) {imm : Imm10} (h : 64 ≤ imm.toNat) :
    dad c (sext imm) = none := by
  rw [dad_outside (le_sext_imm10_toNat h), hc, dadLookup]

/-! ### lw and sw -/

section
variable {s : State} {rs : Reg} {imm : Imm10} {a : DAddr} {v : Word}

theorem withDataAddr_undecoded {k : DAddr → Result} (haddr : dad s.cfg (sext imm) = none) :
    withDataAddr s imm k = .fault (.dataAddressUndecoded (sext imm)) := by
  simp [withDataAddr, haddr]

theorem exec_lw_undecoded (haddr : dad s.cfg (sext imm) = none) :
    exec (.lw rs imm) s = .fault (.dataAddressUndecoded (sext imm)) :=
  withDataAddr_undecoded haddr

theorem exec_sw_undecoded (hr : s.readable rs = true) (haddr : dad s.cfg (sext imm) = none) :
    exec (.sw rs imm) s = .fault (.dataAddressUndecoded (sext imm)) := by
  rw [exec, execSw, withReg_readable hr, withDataAddr_undecoded haddr]

theorem exec_sw_unreadable (hr : s.readable rs = false) : exec (.sw rs imm) s = .fault (.uninitRead (.reg rs)) := by
  rw [exec, execSw, withReg_unreadable hr]

theorem exec_sw_decoded (hr : s.readable rs = true) (haddr : dad s.cfg (sext imm) = some a) :
    exec (.sw rs imm) s = .next (memWrite s a (s.reg rs)).advance :=
  execSw_decoded hr haddr

theorem exec_lw_dmem (haddr : dad s.cfg (sext imm) = some a) (ha : a.toNat < 32) (hv : s.dmemValue a = some v) :
    exec (.lw rs imm) s = .next (s.setReg rs v).advance :=
  execLw_dmem haddr ha hv

theorem exec_lw_uninit (haddr : dad s.cfg (sext imm) = some a) (ha : a.toNat < 32) (hv : s.dmemValue a = none) :
    exec (.lw rs imm) s = .fault (.uninitRead (.dmem a)) :=
  (withDataAddr_decoded haddr).trans (memRead_fault.2 (.inr (.inr ⟨isIo_eq_false_iff.2 ha, hv, rfl⟩)))

theorem exec_lw_io (haddr : dad s.cfg (sext imm) = some a) (ha : 32 ≤ a.toNat) :
    exec (.lw rs imm) s =
      .next ((s.logIo (.read a (Config.ioOracle s.io a))).setReg rs (Config.ioOracle s.io a)).advance :=
  (withDataAddr_decoded haddr).trans (memRead_next.2 (.inl ⟨(isIo_iff a).2 ha, rfl⟩))

/-- An unwritten DMem word has no value under UNINIT = fault (spec/10_state.md R37). -/
theorem State.dmemValue_unwritten_fault (h : s.dmem.get a.toNat = none) (hu : s.cfg.uninit = .fault) :
    s.dmemValue a = none := by
  simp [State.dmemValue_eq, h, hu]

/-- Under UNINIT = arbitrary it has its power-up value (R37). -/
theorem State.dmemValue_unwritten_arbitrary (h : s.dmem.get a.toNat = none) (hu : s.cfg.uninit = .arbitrary) :
    s.dmemValue a = some (Config.dmemPowerUp a) := by
  simp [State.dmemValue_eq, h, hu]

/-- lw from the I/O region writes its register as from DMem, and its event enters the history (R45, R131). -/
theorem writesReg_logIo_setReg_advance {e : IoEvent} :
    WritesReg s ((s.logIo e).setReg rs v).advance rs (fun r => r = v) [e] := by
  have hothers : ∀ q, q ≠ rs → ((s.logIo e).setReg rs v).advance.cell q = s.cell q :=
    fun q hq => State.setReg_cell_other (s.logIo e) rs q v hq
  exact ⟨by simp, by simp, hothers, rfl, ⟨fun _ => rfl, fun _ => rfl⟩, rfl, rfl⟩

/-- The DMem words after a sw to a DMem address (R132). -/
theorem memWrite_advance_dmem (ha : a.toNat < 32) :
    (memWrite s a v).advance.dmem.get a.toNat = some v ∧
    (∀ b, b ≠ a.toNat → (memWrite s a v).advance.dmem.get b = s.dmem.get b) ∧ (memWrite s a v).advance.io = s.io := by
  rw [memWrite_eq_setDMem ha]
  exact ⟨Memory.get_put_same .., fun b hb => Memory.get_put_other _ _ hb, rfl⟩

/-- DMem and the history after a sw to an I/O address (R132). -/
theorem memWrite_advance_io (ha : 32 ≤ a.toNat) :
    (∀ b, (memWrite s a v).advance.dmem.get b = s.dmem.get b) ∧
    (memWrite s a v).advance.io = s.io ++ [.write a v] := by
  simp [memWrite_dmem, memWrite_io, (isIo_iff a).2 ha]

end

/-! ### The statements -/

/-- Settles O24. -/
theorem dataAddressDecoder : Obligations.DataAddressDecoder := by
  intro rs imm s
  refine ⟨fun h => ⟨_, dad_imm_of_lt s.cfg h, imm_toNat_dataAddress h⟩, fun h hdefault => ?_⟩
  have haddr := dad_imm_of_le hdefault h
  rw [← sext_eq_signExtend imm (by decide)]
  exact ⟨exec_lw_undecoded haddr, fun hr => exec_sw_undecoded hr haddr⟩

/-- Settles O25: a value is undecoded when no address makes the first part hold. -/
theorem dataAddressDecoderParameter : Obligations.DataAddressDecoderParameter := by
  intro c v a hc hv
  refine ⟨dad_eq_some_iff hc hv, ?_⟩
  rw [Option.eq_none_iff_forall_ne_some]
  exact forall_congr' fun b => not_congr (dad_eq_some_iff hc hv)

/-- Settles O26, by what the address and the cell at it are. -/
theorem lwRule : Obligations.LwRule := by
  refine ⟨riForm_of_eq 0b100#3 (fun _ _ => rfl) fun _ _ => rfl, fun rs imm s => ⟨exec_lw_undecoded, fun a haddr => ?_⟩⟩
  refine ⟨fun ha v hv => ?_, fun ha hv hu => ?_, fun ha => ?_⟩
  · exact ⟨_, exec_lw_dmem haddr ha (State.dmemValue_of_get hv), writesReg_setReg_advance rfl⟩
  · exact exec_lw_uninit haddr ha (State.dmemValue_unwritten_fault hv hu)
  · exact ⟨_, exec_lw_io haddr ha, writesReg_logIo_setReg_advance⟩

/-- Settles O27. -/
theorem lwOfAnUnwrittenCell : Obligations.LwOfAnUnwrittenCell :=
  fun _ _ _ _ haddr ha hv hu =>
    ⟨_, exec_lw_dmem haddr ha (State.dmemValue_unwritten_arbitrary hv hu), writesReg_setReg_advance rfl⟩

/-- Settles O28: the frame is that of `memWrite`, and what is stored or recorded depends on the address. -/
theorem swRule : Obligations.SwRule := by
  refine ⟨riForm_of_eq 0b101#3 (fun _ _ => rfl) fun _ _ => rfl,
    fun rs imm s => ⟨exec_sw_unreadable, fun hr => ⟨exec_sw_undecoded hr, fun a haddr => ?_⟩⟩⟩
  exact ⟨_, exec_sw_decoded hr haddr, by simp, by simp, by simp, by simp, memWrite_advance_dmem, memWrite_advance_io⟩

end Sys2Proof.Machine
end

section
/-! The RRR instructions not settled above, addi, subi, li and nop (spec/40_rrr_register_ops.md R100 to R118,
spec/41_rri_immediate_and_beq.md R120 to R122, spec/42_ri_memory_jump_li.md R134, spec/43_pseudo_instructions.md R143). -/

namespace Sys2Proof

open Sys2Proof.Claims

/-! ### A one-source word with another Rt field -/

section
variable {rs rt rd : Reg} {f : BitVec 4} {i : Instr}

theorem isReservedWord_rrrWord (hf : f ∈ oneSourceFuncts) (hrt : rt ≠ 0) : IsReservedWord (rrrWord rs rt rd f) := by
  rw [isReservedWord_iff, opcodeField_rrrWord, functField_rrrWord, rtField_rrrWord]
  exact ⟨rfl, hf, hrt⟩

/-- A machine instruction is told by its word. -/
theorem eq_of_encode_eq {i j : Instr} (hi : i.wellFormed = true) (hj : j.wellFormed = true) (h : encode i = encode j) :
    i = j := by
  have hdecode := decode_encode .fault i
  rw [h, decode_encode, Instr.expand_of_wellFormed hi, Instr.expand_of_wellFormed hj] at hdecode
  exact (Decoded.instr.inj hdecode).symm

/-- R74: under UNARY_RT = ignore a one-source word is the instruction whose Rt field is 000, whatever its own holds. -/
theorem decode_ignore_rrrWord (hf : f ∈ oneSourceFuncts) (hrt : rt ≠ 0) (hi : i.wellFormed = true)
    (hword : encode i = rrrWord rs 0 rd f) : decode .ignore (rrrWord rs rt rd f) = .instr i := by
  obtain ⟨j, hj⟩ := exists_decode_ignore (rrrWord rs rt rd f)
  have hread := reading_decode .ignore (rrrWord rs rt rd f)
  rw [hj] at hread
  cases hread with
  | exact hfree => exact absurd (isReservedWord_rrrWord hf hrt) hfree
  | rtIgnored _ _ hword' =>
    rw [rsField_rrrWord, rdField_rrrWord, functField_rrrWord, ← hword] at hword'
    rw [hj, eq_of_encode_eq (wellFormed_of_decode hj) hi hword']

end

namespace Machine

/-! ### The shapes -/

section
variable {s t : State} {rd rs rt : Reg}

theorem unaryOp_unreadable {g : Word → Word} (h : s.readable rs = false) :
    unaryOp g rd rs s = .fault (.uninitRead (.reg rs)) :=
  unaryOp_fault.2 ⟨h, rfl⟩

theorem unaryOp_writesReg {g : Word → Word} {P : Word → Prop} (h : s.readable rs = true) (hP : P (g (s.reg rs))) :
    ∃ t, unaryOp g rd rs s = .next t ∧ WritesReg s t rd P [] :=
  ⟨_, unaryOp_readable h, writesReg_setReg_advance hP⟩

/-- R100: an RRR instruction that computes by `unaryOp` obeys the one-source rule, for any description of its result that its
operator meets. -/
theorem oneSourceRule_of_unaryOp {op : Mnemonic} {mk : Reg → Reg → Instr} (funct : BitVec 4) (g : Word → Word)
    {result : Word → Word → Prop} (hfunct : funct ∈ oneSourceFuncts)
    (hline : ∀ rd rs, assemble { op := op, args := [.reg rd, .reg rs] } = some (mk rd rs))
    (hmachine : ∀ rd rs, (mk rd rs).wellFormed = true)
    (hword : ∀ rd rs, encode (mk rd rs) = rrrWord rs 0 rd funct)
    (hexec : ∀ rd rs s, exec (mk rd rs) s = unaryOp g rd rs s)
    (hresult : ∀ a, result a (g a)) : OneSourceRule op mk funct.toNat result := by
  intro rd rs
  refine ⟨hline rd rs, by simp [hword, rrrWord_toNat], fun rt w hrt hw => ?_, fun s => ?_⟩
  · obtain rfl : w = rrrWord rs rt rd funct := BitVec.eq_of_toNat_eq (by rw [hw, rrrWord_toNat])
    exact ⟨decode_fault_of_reserved (isReservedWord_rrrWord hfunct hrt),
      decode_ignore_rrrWord hfunct hrt (hmachine rd rs) (hword rd rs)⟩
  · rw [hexec]
    exact ⟨fun h => unaryOp_writesReg h (hresult _), unaryOp_unreadable⟩

/-- R120: an RRI instruction that computes by `unaryOp` into Rt obeys the immediate rule. -/
theorem immediateRule_of_unaryOp {op : Mnemonic} {mk : Reg → Reg → Imm7 → Instr} (opcode : BitVec 3)
    (g : Imm7 → Word → Word) {result : Word → Int → Word → Prop}
    (hline : ∀ rt rs n, assemble { op := op, args := [.reg rt, .reg rs, .imm n] } = (immField 7 n).map (mk rt rs))
    (hword : ∀ rt rs imm, encode (mk rt rs imm) = rriWord opcode rs rt imm)
    (hexec : ∀ rt rs imm s, exec (mk rt rs imm) s = unaryOp (g imm) rt rs s)
    (hresult : ∀ imm a, result a imm.toInt (g imm a)) : ImmediateRule op mk opcode.toNat result := by
  intro rt rs imm
  refine ⟨fun n => assemble_of_immField (mk rt rs) (hline rt rs n), by rw [hword, rriWord_toNat], fun s => ?_⟩
  rw [hexec]
  exact ⟨fun h => unaryOp_writesReg h (hresult imm _), unaryOp_unreadable⟩

/-- The destination holds the operator's result. -/
theorem reg_of_binaryOp {g : Word → Word → Word} (h : binaryOp g rd rs rt s = .next t) :
    t.reg rd = g (s.reg rs) (s.reg rt) := by
  obtain ⟨-, -, rfl⟩ := binaryOp_next.1 h
  simp

theorem reg_of_unaryOp {g : Word → Word} (h : unaryOp g rd rs s = .next t) : t.reg rd = g (s.reg rs) := by
  obtain ⟨-, rfl⟩ := unaryOp_next.1 h
  simp

end

section
variable {s t : State} {rd rs rt : Reg}

theorem reg_of_exec_slt (h : exec (.slt rd rs rt) s = .next t) :
    t.reg rd = signalWord (lessSignal s.cfg (s.reg rs) (s.reg rt)) :=
  reg_of_binaryOp (g := fun a b => signalWord (lessSignal s.cfg a b)) h

theorem reg_of_exec_sgt (h : exec (.sgt rd rs rt) s = .next t) :
    t.reg rd = signalWord (lessSignal s.cfg (s.reg rt) (s.reg rs)) :=
  reg_of_binaryOp (g := fun a b => signalWord (greaterSignal s.cfg a b)) h

end

/-! ### Arithmetic: the truncated result, over either reading of the operands -/

/-- `trunc16(r) = r mod 65536` (spec/00_scope.md R8). -/
theorem trunc16_toNat_eq_emod (r : Int) : ((trunc16 r).toNat : Int) = r % 65536 := by
  rw [trunc16, BitVec.toNat_ofInt]
  exact Int.toNat_of_nonneg (Int.emod_nonneg r (by decide))

theorem trunc16_sub (x y : Int) : trunc16 (x - y) = trunc16 x - trunc16 y := by
  rw [trunc16, Int.sub_eq_add_neg, BitVec.ofInt_add, BitVec.ofInt_neg, ← BitVec.sub_eq_add_neg]
  rfl

/-- A word is the truncation of its signed value. -/
theorem trunc16_toInt (a : Word) : trunc16 a.toInt = a :=
  BitVec.ofInt_toInt

section
variable (a b : Word)

theorem aluAdd_eq_trunc16_toInt : aluAdd a b = trunc16 (a.toInt + b.toInt) := by
  rw [aluAdd_eq, trunc16, BitVec.ofInt_add, BitVec.ofInt_toInt, BitVec.ofInt_toInt]

theorem aluSub_eq_trunc16_toInt : aluSub a b = trunc16 (a.toInt - b.toInt) := by
  rw [aluSub_eq, trunc16_sub, trunc16_toInt, trunc16_toInt]

theorem aluMul_eq_trunc16_toInt : aluMul a b = trunc16 (a.toInt * b.toInt) := by
  rw [aluMul_eq, trunc16, BitVec.ofInt_mul, BitVec.ofInt_toInt, BitVec.ofInt_toInt]

theorem aluInc_eq_trunc16_toInt : aluInc a = trunc16 (a.toInt + 1) :=
  aluAdd_eq_trunc16_toInt a 1

theorem aluDec_eq_trunc16_toInt : aluDec a = trunc16 (a.toInt - 1) :=
  aluSub_eq_trunc16_toInt a 1

/-- addi's immediate takes part with its signed value (R121). -/
theorem aluAddImm_eq_trunc16 (imm : Imm7) : aluAddImm imm a = trunc16 (a.toNat + imm.toInt) := by
  rw [aluAddImm, aluAdd_eq, sext_eq_ofInt_toInt imm (by decide), trunc16, BitVec.ofInt_add, BitVec.ofInt_natCast,
    BitVec.ofNat_toNat, BitVec.setWidth_eq]

/-- subi's immediate takes part with its signed value (R122). -/
theorem aluSubImm_eq_trunc16 (imm : Imm7) : aluSubImm imm a = trunc16 (a.toNat - imm.toInt) := by
  rw [aluSubImm, aluSub_eq, sext_eq_ofInt_toInt imm (by decide), trunc16_sub, trunc16_natCast, BitVec.ofNat_toNat,
    BitVec.setWidth_eq]
  rfl

/-! ### Result bits -/

theorem aluOr_getLsbD (i : Nat) : (aluOr a b).getLsbD i = (a.getLsbD i || b.getLsbD i) :=
  BitVec.getLsbD_or

theorem aluXor_getLsbD (i : Nat) : (aluXor a b).getLsbD i = (a.getLsbD i != b.getLsbD i) :=
  BitVec.getLsbD_xor

theorem shiftLeft_getLsbD_low {k i : Nat} (h : i < k) : (shiftLeft k a).getLsbD i = false := by
  rw [shiftLeft_eq, BitVec.getLsbD_shiftLeft]
  simp [h]

theorem shiftLeft_getLsbD {k i : Nat} (h : i + k < 16) : (shiftLeft k a).getLsbD (i + k) = a.getLsbD i := by
  rw [shiftLeft_eq, BitVec.getLsbD_shiftLeft]
  simp [h]

theorem shiftRight_getLsbD (k i : Nat) : (shiftRight k a).getLsbD i = a.getLsbD (i + k) := by
  rw [shiftRight_eq, BitVec.getLsbD_ushiftRight, Nat.add_comm]

/-- The bits a logical right shift frees are zero (R110, R112). -/
theorem shiftRight_getLsbD_high {k i : Nat} (h : 16 ≤ i + k) : (shiftRight k a).getLsbD i = false := by
  rw [shiftRight_getLsbD, BitVec.getLsbD_of_ge a _ h]

theorem shiftRightArith_getLsbD {i : Nat} (h : i < 15) : (shiftRightArith a).getLsbD i = a.getLsbD (i + 1) := by
  rw [shiftRightArith_eq, BitVec.getLsbD_sshiftRight, if_pos (by omega), decide_eq_false (by omega), Nat.add_comm]
  rfl

/-- sra keeps the leading bit (R113). -/
theorem shiftRightArith_getLsbD_top : (shiftRightArith a).getLsbD 15 = a.getLsbD 15 := by
  rw [shiftRightArith_eq, BitVec.getLsbD_sshiftRight]
  simp [BitVec.msb_eq_getLsbD_last]

/-- sra is the floor of half the signed value (R113). -/
theorem shiftRightArith_toInt : (shiftRightArith a).toInt = a.toInt / 2 := by
  rw [shiftRightArith_eq, BitVec.toInt_sshiftRight, Int.shiftRight_eq_div_pow]
  rfl

/-! ### Comparison -/

theorem signalWord_decide (p : Prop) [Decidable p] : signalWord (decide p) = if p then 1 else 0 := by
  simp [signalWord]

variable {c : Config}

theorem lessSignal_signed (h : c.cmpSigned = true) : lessSignal c a b = decide (a.toInt < b.toInt) := by
  simp [lessSignal, h, signed_eq_toInt]

theorem lessSignal_unsigned (h : c.cmpSigned = false) : lessSignal c a b = decide (a.toNat < b.toNat) := by
  simp [lessSignal, h]

/-- slt's word by CMP_SIGNED (R115). -/
theorem signalWord_lessSignal :
    (c.cmpSigned = true → signalWord (lessSignal c a b) = if a.toInt < b.toInt then 1 else 0) ∧
    (c.cmpSigned = false → signalWord (lessSignal c a b) = if a.toNat < b.toNat then 1 else 0) :=
  ⟨fun h => by rw [lessSignal_signed a b h, signalWord_decide],
    fun h => by rw [lessSignal_unsigned a b h, signalWord_decide]⟩

/-- The signed and the unsigned order agree on words with equal top bits, and are opposite on others. -/
theorem toInt_lt_iff_toNat_lt : (a.toInt < b.toInt ↔ a.toNat < b.toNat) ↔ a.getLsbD 15 = b.getLsbD 15 := by
  have hmsb (v : Word) : v.getLsbD 15 = decide (32768 ≤ v.toNat) :=
    (BitVec.msb_eq_getLsbD_last v).symm.trans (BitVec.msb_eq_decide v)
  rw [hmsb, hmsb, decide_eq_decide, ← signed_eq_toInt, ← signed_eq_toInt, signed, signed]
  have ha := a.isLt
  have hb := b.isLt
  split <;> split <;> omega

/-- The two settings of CMP_SIGNED give one word exactly for operands with equal top bits (R115). -/
theorem signalWord_lessSignal_eq_iff {c' : Config} (h : c.cmpSigned = true) (h' : c'.cmpSigned = false) :
    signalWord (lessSignal c a b) = signalWord (lessSignal c' a b) ↔ a.getLsbD 15 = b.getLsbD 15 := by
  rw [lessSignal_signed a b h, lessSignal_unsigned a b h', signalWord_decide_eq_iff, toInt_lt_iff_toNat_lt]

end

/-! ### The statements -/

/-- Settles O11: the truncation of the exact result is the operator itself, over either reading of the operands. -/
theorem arithmeticNeedsNoSignedness : Obligations.ArithmeticNeedsNoSignedness := by
  intro rd rs rt s t
  refine ⟨fun h => ?_, fun h => ?_, fun h => ?_, fun h => ?_, fun h => ?_⟩
  · rw [reg_of_binaryOp h]
    exact ⟨rfl, aluAdd_eq_trunc16_toInt ..⟩
  · rw [reg_of_binaryOp h]
    exact ⟨rfl, aluSub_eq_trunc16_toInt ..⟩
  · rw [reg_of_unaryOp h]
    exact ⟨rfl, aluInc_eq_trunc16_toInt _⟩
  · rw [reg_of_unaryOp h]
    exact ⟨rfl, aluDec_eq_trunc16_toInt _⟩
  · rw [reg_of_binaryOp h]
    exact ⟨rfl, aluMul_eq_trunc16_toInt ..⟩

/-- Settles O12. -/
theorem addSubRules : Obligations.AddSubRules := by
  constructor
  · exact twoSourceRule_of_binaryOp 0b0000#4 (fun _ => aluAdd) (fun _ _ _ => rfl) (fun _ _ _ => rfl)
      (fun _ _ _ _ => rfl) fun _ _ _ => trunc16_toNat_eq_emod _
  · exact twoSourceRule_of_binaryOp 0b0010#4 (fun _ => aluSub) (fun _ _ _ => rfl) (fun _ _ _ => rfl)
      (fun _ _ _ _ => rfl) fun _ _ _ => trunc16_toNat_eq_emod _

/-- Settles O13. -/
theorem mulRule : Obligations.MulRule :=
  twoSourceRule_of_binaryOp 0b1101#4 (fun _ => aluMul) (fun _ _ _ => rfl) (fun _ _ _ => rfl)
    (fun _ _ _ _ => rfl) fun _ a b => trunc16_toNat (a.toNat * b.toNat)

/-- Settles O14. -/
theorem incDecRules : Obligations.IncDecRules := by
  constructor
  · exact oneSourceRule_of_unaryOp 0b0001#4 aluInc (by decide) (fun _ _ => rfl) (fun _ _ => rfl) (fun _ _ => rfl)
      (fun _ _ _ => rfl) fun a => trunc16_toNat (a.toNat + 1)
  · exact oneSourceRule_of_unaryOp 0b0011#4 aluDec (by decide) (fun _ _ => rfl) (fun _ _ => rfl) (fun _ _ => rfl)
      (fun _ _ _ => rfl) fun _ => trunc16_toNat_eq_emod _

/-- Settles O16. -/
theorem orXorRules : Obligations.OrXorRules := by
  constructor
  · exact twoSourceRule_of_binaryOp 0b0101#4 (fun _ => aluOr) (fun _ _ _ => rfl) (fun _ _ _ => rfl)
      (fun _ _ _ _ => rfl) fun _ a b i _ => aluOr_getLsbD a b i
  · exact twoSourceRule_of_binaryOp 0b0111#4 (fun _ => aluXor) (fun _ _ _ => rfl) (fun _ _ _ => rfl)
      (fun _ _ _ _ => rfl) fun _ a b i _ => aluXor_getLsbD a b i

/-- Settles O17: shfl, then sll, then sra, whose bit 14 comes from bit 15 as every other from the one above. -/
theorem shiftRules : Obligations.ShiftRules := by
  refine ⟨?_, ?_, ?_⟩
  · exact oneSourceRule_of_unaryOp 0b1000#4 (shiftLeft 1) (by decide) (fun _ _ => rfl) (fun _ _ => rfl) (fun _ _ => rfl)
      (fun _ _ _ => rfl) fun a =>
        ⟨shiftLeft_getLsbD_low a (by decide), fun _ hi => shiftLeft_getLsbD a (Nat.add_lt_add_right hi 1)⟩
  · exact oneSourceRule_of_unaryOp 0b1010#4 (shiftLeft 2) (by decide) (fun _ _ => rfl) (fun _ _ => rfl) (fun _ _ => rfl)
      (fun _ _ _ => rfl) fun a =>
        ⟨shiftLeft_getLsbD_low a (by decide), shiftLeft_getLsbD_low a (by decide),
          fun _ hi => shiftLeft_getLsbD a (Nat.add_lt_add_right hi 2)⟩
  · exact oneSourceRule_of_unaryOp 0b1100#4 shiftRightArith (by decide) (fun _ _ => rfl) (fun _ _ => rfl) (fun _ _ => rfl)
      (fun _ _ _ => rfl) fun a =>
        ⟨shiftRightArith_getLsbD_top a, shiftRightArith_getLsbD a (by decide),
          fun _ hi => shiftRightArith_getLsbD a (Nat.lt_succ_of_lt hi), shiftRightArith_toInt a⟩

/-- Settles O18. -/
theorem logicalRightShiftRules : Obligations.LogicalRightShiftRules := by
  constructor
  · exact oneSourceRule_of_unaryOp 0b1001#4 (shiftRight 1) (by decide) (fun _ _ => rfl) (fun _ _ => rfl) (fun _ _ => rfl)
      (fun _ _ _ => rfl) fun a => ⟨shiftRight_getLsbD_high a (by decide), fun i _ => shiftRight_getLsbD a 1 i⟩
  · exact oneSourceRule_of_unaryOp 0b1011#4 (shiftRight 2) (by decide) (fun _ _ => rfl) (fun _ _ => rfl) (fun _ _ => rfl)
      (fun _ _ _ => rfl) fun a =>
        ⟨shiftRight_getLsbD_high a (by decide), shiftRight_getLsbD_high a (by decide), fun i _ => shiftRight_getLsbD a 2 i⟩

/-- Settles O19: sgt's signal is slt's with the operands swapped. -/
theorem compareRules : Obligations.CompareRules := by
  refine ⟨rfl, ?_, ?_⟩
  · exact twoSourceRule_of_binaryOp 0b1110#4 (fun c a b => signalWord (lessSignal c a b)) (fun _ _ _ => rfl)
      (fun _ _ _ => rfl) (fun _ _ _ _ => rfl) fun _ a b => signalWord_lessSignal a b
  · exact twoSourceRule_of_binaryOp 0b1111#4 (fun c a b => signalWord (greaterSignal c a b)) (fun _ _ _ => rfl)
      (fun _ _ _ => rfl) (fun _ _ _ _ => rfl) fun _ a b => signalWord_lessSignal b a

/-- Settles O20. -/
theorem compareSettingsDifferByTopBits : Obligations.CompareSettingsDifferByTopBits := by
  rintro i rd rs rt s t u (rfl | rfl) hsigned ht hu
  · rw [reg_of_exec_slt ht, reg_of_exec_slt hu]
    exact signalWord_lessSignal_eq_iff _ _ hsigned rfl
  · rw [reg_of_exec_sgt ht, reg_of_exec_sgt hu, eq_comm (a := (s.reg rs).getLsbD 15)]
    exact signalWord_lessSignal_eq_iff _ _ hsigned rfl

/-- Settles O22. -/
theorem addiSubiRules : Obligations.AddiSubiRules := by
  constructor
  · exact immediateRule_of_unaryOp 0b001#3 aluAddImm (fun _ _ _ => rfl) (fun _ _ _ => rfl) (fun _ _ _ _ => rfl)
      fun imm a => by rw [aluAddImm_eq_trunc16, trunc16_toNat_eq_emod]
  · exact immediateRule_of_unaryOp 0b010#3 aluSubImm (fun _ _ _ => rfl) (fun _ _ _ => rfl) (fun _ _ _ _ => rfl)
      fun imm a => by rw [aluSubImm_eq_trunc16, trunc16_toNat_eq_emod]

/-- Settles O30. -/
theorem liRule : Obligations.LiRule := by
  refine ⟨riForm_of_eq 0b111#3 (fun _ _ => rfl) fun _ _ => rfl,
    fun rs imm s => ⟨_, rfl, writesReg_setReg_advance ⟨fun hext => ?_, fun hext => ?_⟩⟩⟩
  · rw [liValue, hext, sext_eq_signExtend imm (by decide)]
  · rw [liValue, hext, zext_toNat imm (by decide)]

/-- Settles O32: addi of 0 leaves the register's value as it was. -/
theorem nopRule : Obligations.NopRule := by
  refine ⟨rfl, rfl, fun rs => ⟨by rw [encode, rriWord_toNat]; rfl, fun s => ⟨rfl, fun hr => ?_, unaryOp_unreadable⟩⟩⟩
  refine unaryOp_writesReg hr ?_
  rw [aluAddImm, aluAdd_eq]
  exact BitVec.add_zero _

end Machine

end Sys2Proof
end

section
/-! Which fault an instruction, a step and a run can raise (spec/60_exceptions.md R151, R153; spec/10_state.md R37). -/

namespace Sys2Proof.Machine

open Sys2Proof.Claims

/-! ### An instruction makes its checks in order -/

/-- A result answers to a list of checks: it is their first fault, or a next state if none fails. -/
def Answers (r : Result) : Option Fault → Prop
  | none => ∃ t, r = .next t
  | some f => r = .fault f

/-- The fault of the first register of a list that cannot be read (checks (4) and (5) of R153). -/
def readFault (s : State) (regs : List Reg) : Option Fault :=
  (regs.find? fun r => !s.readable r).map fun r => .uninitRead (.reg r)

section
variable {s t : State} {i : Instr} {r rd rs rt : Reg} {regs : List Reg} {imm : Imm10} {f : Fault}

theorem answers_next : Answers (.next t) none := ⟨t, rfl⟩

theorem readFault_of_readable (h : s.readable r = true) : readFault s (r :: regs) = readFault s regs := by
  simp [readFault, h]

theorem readFault_of_unreadable (h : s.readable r = false) : readFault s (r :: regs) = some (.uninitRead (.reg r)) := by
  simp [readFault, h]

/-- Reading a register is the first check, and the continuation makes the others. -/
theorem withReg_answers {k : Word → Result} (hk : Answers (k (s.reg r)) (readFault s regs)) :
    Answers (withReg s r k) (readFault s (r :: regs)) := by
  cases h : s.readable r with
  | true => rwa [withReg_readable h, readFault_of_readable h]
  | false =>
    rw [withReg_unreadable h, readFault_of_unreadable h]
    rfl

/-- Reading one register twice is reading it once. -/
theorem withReg_withReg_same {k : Word → Word → Result} :
    (withReg s r fun a => withReg s r fun b => k a b) = withReg s r fun a => k a a := by
  cases h : s.readable r with
  | true => simp only [withReg_readable h]
  | false => simp only [withReg_unreadable h]

theorem binaryOp_answers {g : Word → Word → Word} : Answers (binaryOp g rd rs rt s) (readFault s [rs, rt]) :=
  withReg_answers (withReg_answers answers_next)

theorem binaryOp_same_answers {g : Word → Word → Word} : Answers (binaryOp g rd rs rs s) (readFault s [rs]) := by
  rw [binaryOp, withReg_withReg_same]
  exact withReg_answers answers_next

theorem unaryOp_answers {g : Word → Word} : Answers (unaryOp g rd rs s) (readFault s [rs]) :=
  withReg_answers answers_next

theorem execSlt_answers : Answers (execSlt rd rs rt s) (readFault s [rs, rt]) := binaryOp_answers

theorem execSgt_answers : Answers (execSgt rd rs rt s) (readFault s [rs, rt]) := binaryOp_answers

theorem execBeq_answers {imm : Imm7} : Answers (execBeq rs rt imm s) (readFault s [rs, rt]) :=
  withReg_answers (withReg_answers answers_next)

theorem execJnz_answers : Answers (execJnz rs imm s) (readFault s [rs]) :=
  withReg_answers answers_next

theorem execJmp_answers {imm : Imm7} : Answers (execJmp rs imm s) (readFault s [rs]) := by
  rw [execJmp, withReg_withReg_same]
  exact withReg_answers answers_next

/-- A DMem cell has no value exactly where nothing is stored and UNINIT = fault (spec/10_state.md R37). -/
theorem State.dmemValue_eq_none_iff {a : DAddr} :
    s.dmemValue a = none ↔ s.dmem.get a.toNat = none ∧ s.cfg.uninit = .fault := by
  rw [State.dmemValue_eq]
  cases s.dmem.get a.toNat <;> simp

theorem firstFault_lw_decoded {a : DAddr} (haddr : dad s.cfg (sext imm) = some a) :
    firstFault (.lw rs imm) s =
      if a.toNat < 32 ∧ s.dmemValue a = none then some (.uninitRead (.dmem a)) else none := by
  simp [firstFault, sources, haddr, State.dmemValue_eq_none_iff]

theorem firstFault_lw_undecoded (haddr : dad s.cfg (sext imm) = none) :
    firstFault (.lw rs imm) s = some (.dataAddressUndecoded (sext imm)) := by
  simp [firstFault, sources, haddr]

theorem firstFault_sw_unreadable (hr : s.readable rs = false) :
    firstFault (.sw rs imm) s = some (.uninitRead (.reg rs)) := by
  simp [firstFault, sources, hr]

theorem firstFault_sw_decoded {a : DAddr} (hr : s.readable rs = true) (haddr : dad s.cfg (sext imm) = some a) :
    firstFault (.sw rs imm) s = none := by
  simp [firstFault, sources, hr, haddr]

theorem firstFault_sw_undecoded (hr : s.readable rs = true) (haddr : dad s.cfg (sext imm) = none) :
    firstFault (.sw rs imm) s = some (.dataAddressUndecoded (sext imm)) := by
  simp [firstFault, sources, hr, haddr]

theorem exec_lw_answers : Answers (exec (.lw rs imm) s) (firstFault (.lw rs imm) s) := by
  cases haddr : dad s.cfg (sext imm) with
  | none =>
    rw [exec_lw_undecoded haddr, firstFault_lw_undecoded haddr]
    rfl
  | some a =>
    rw [firstFault_lw_decoded haddr]
    by_cases ha : a.toNat < 32
    · cases hv : s.dmemValue a with
      | none =>
        rw [exec_lw_uninit haddr ha hv, if_pos ⟨ha, rfl⟩]
        rfl
      | some v =>
        rw [exec_lw_dmem haddr ha hv, if_neg (by simp)]
        exact answers_next
    · rw [exec_lw_io haddr (Nat.le_of_not_lt ha), if_neg fun h => ha h.1]
      exact answers_next

theorem exec_sw_answers : Answers (exec (.sw rs imm) s) (firstFault (.sw rs imm) s) := by
  cases hr : s.readable rs with
  | false =>
    rw [exec_sw_unreadable hr, firstFault_sw_unreadable hr]
    rfl
  | true =>
    cases haddr : dad s.cfg (sext imm) with
    | none =>
      rw [exec_sw_undecoded hr haddr, firstFault_sw_undecoded hr haddr]
      rfl
    | some a =>
      rw [exec_sw_decoded hr haddr, firstFault_sw_decoded hr haddr]
      exact answers_next

/-- An instruction that is neither lw nor sw has no checks but those of its registers. -/
theorem firstFault_eq_readFault (hlw : ∀ rs imm, i ≠ .lw rs imm) (hsw : ∀ rs imm, i ≠ .sw rs imm) :
    firstFault i s = readFault s (sources i) := by
  unfold firstFault readFault
  split
  · rename_i r hfind
    rw [hfind]
    rfl
  · rename_i hfind
    rw [hfind]
    split
    · exact absurd rfl (hlw _ _)
    · exact absurd rfl (hsw _ _)
    · rfl

theorem exec_answers_of_no_access (hlw : ∀ rs imm, i ≠ .lw rs imm) (hsw : ∀ rs imm, i ≠ .sw rs imm) :
    Answers (exec i s) (firstFault i s) := by
  rw [firstFault_eq_readFault hlw hsw]
  cases i with
  | add | sub | and | or | nand | xor | mul => exact binaryOp_answers
  | slt rd rs rt => exact execSlt_answers
  | sgt => exact execSgt_answers
  | inc | dec | shfl | shfr | sll | srr | sra | addi | subi | nop => exact unaryOp_answers
  | not | mov => exact binaryOp_same_answers
  | beq => exact execBeq_answers
  | jmp => exact execJmp_answers
  | jnz => exact execJnz_answers
  | lw => exact absurd rfl (hlw _ _)
  | sw => exact absurd rfl (hsw _ _)
  | li => exact answers_next

/-- R153: every instruction makes its checks in the order Rs, Rt, data address, DMem cell. -/
theorem exec_answers (i : Instr) (s : State) : Answers (exec i s) (firstFault i s) := by
  cases i with
  | lw => exact exec_lw_answers
  | sw => exact exec_sw_answers
  | _ => exact exec_answers_of_no_access nofun nofun

theorem exec_next_of_firstFault (h : firstFault i s = none) : ∃ t, exec i s = .next t := by
  have ha := exec_answers i s
  rwa [h] at ha

theorem exec_fault_of_firstFault (h : firstFault i s = some f) : exec i s = .fault f := by
  have ha := exec_answers i s
  rwa [h] at ha

theorem firstFault_of_exec_next (h : exec i s = .next t) : firstFault i s = none := by
  cases hf : firstFault i s with
  | none => rfl
  | some f => cases h.symm.trans (exec_fault_of_firstFault hf)

theorem firstFault_of_exec_fault (h : exec i s = .fault f) : firstFault i s = some f := by
  cases hf : firstFault i s with
  | none =>
    obtain ⟨t, ht⟩ := exec_next_of_firstFault hf
    cases h.symm.trans ht
  | some g =>
    cases h.symm.trans (exec_fault_of_firstFault hf)
    rfl

end

/-! ### What each fault tells of the state -/

/-- The situations in which the table of R151 gives an instruction a fault. -/
inductive Cause (i : Instr) (s : State) : Fault → Prop where
  | source {r : Reg} (hr : r ∈ sources i) (hunread : s.readable r = false) : Cause i s (.uninitRead (.reg r))
  | address {rs : Reg} {imm : Imm10} (hi : i = .lw rs imm ∨ i = .sw rs imm) (haddr : dad s.cfg (sext imm) = none) :
      Cause i s (.dataAddressUndecoded (sext imm))
  | cell {rs : Reg} {imm : Imm10} {a : DAddr} (hi : i = .lw rs imm) (haddr : dad s.cfg (sext imm) = some a)
      (ha : a.toNat < 32) (hcell : s.dmem.get a.toNat = none) (hset : s.cfg.uninit = .fault) :
      Cause i s (.uninitRead (.dmem a))

section
variable {s t : State} {i : Instr} {r : Reg} {f : Fault}

theorem cause_of_firstFault (h : firstFault i s = some f) : Cause i s f := by
  unfold firstFault at h
  split at h
  · rename_i r hfind
    cases h
    exact .source (List.mem_of_find?_eq_some hfind) (by simpa using List.find?_some hfind)
  · split at h
    · split at h
      · rename_i haddr
        cases h
        exact .address (.inl rfl) haddr
      · rename_i haddr
        split at h
        · rename_i hcell
          obtain ⟨ha, hget, hset⟩ := hcell
          cases h
          exact .cell rfl haddr ha hget hset
        · cases h
    · split at h
      · rename_i haddr
        cases h
        exact .address (.inr rfl) haddr
      · cases h
    · cases h

/-- R37: no read of a register stops under UNINIT = arbitrary, nor a read of a written one. -/
theorem State.readable_eq_false_iff : s.readable r = false ↔ s.cfg.uninit = .fault ∧ (s.cell r).written = false := by
  unfold State.readable
  cases s.cfg.uninit <;> simp

theorem State.readable_of_arbitrary (h : s.cfg.uninit = .arbitrary) : s.readable r = true := by
  simp [State.readable, h]

theorem State.readable_of_written (h : (s.cell r).written = true) : s.readable r = true := by
  simp [State.readable, h]

/-- An instruction whose reads, address and cell are all provided for has a next state. -/
theorem exec_next_of_no_cause (h : ∀ f, ¬ Cause i s f) : ∃ t, exec i s = .next t :=
  exec_next_of_firstFault (Option.eq_none_iff_forall_ne_some.2 fun f hf => h f (cause_of_firstFault hf))

/-- A step faults at its fetch, at its decoding, or for a cause its instruction gives. -/
theorem step_fault (h : step s = .fault f) :
    (∃ i, s.current = some i ∧ Cause i s f) ∨
    (∃ w, s.cfg.unaryRt = .fault ∧ s.pc.toNat < 64 ∧ s.imem.get s.pc.toNat = some w ∧ IsReservedWord w ∧
      f = .reservedEncoding w) ∨
    (s.pc.toNat < 64 ∧ s.imem.get s.pc.toNat = none ∧ f = .fetchNotLoaded s.pc) ∨
    (64 ≤ s.pc.toNat ∧ f = .fetchOutOfRange s.pc) := by
  rcases withFetched_fault.1 h with ⟨hpc, w, hw, hk⟩ | hload | ⟨hpc, hf⟩
  · cases hd : decode s.cfg.unaryRt w with
    | instr i =>
      rw [hd] at hk
      exact .inl ⟨i, State.current_some.2 ⟨hpc, w, hw, hd⟩, cause_of_firstFault (firstFault_of_exec_fault hk)⟩
    | reservedEncoding v =>
      rw [hd] at hk
      obtain rfl := eq_of_decode_reserved hd
      obtain ⟨hset, hres⟩ := reserved_of_decode_reserved hd
      cases hk
      exact .inr (.inl ⟨_, hset, hpc, hw, hres, rfl⟩)
  · exact .inr (.inr (.inl hload))
  · exact .inr (.inr (.inr ⟨Nat.le_of_not_lt hpc, hf⟩))

/-- A run that faults does so in the step from a state it reached. -/
theorem run_fault {k : Nat} (h : run k s = .fault f) : ∃ j u, run j s = .next u ∧ step u = .fault f := by
  induction k generalizing s with
  | zero => cases h
  | succ k ih =>
    rw [run_succ] at h
    cases hstep : step s with
    | next u =>
      rw [hstep] at h
      obtain ⟨j, w, hw, hf⟩ := ih h
      exact ⟨j + 1, w, run_succ_next.2 ⟨u, hstep, hw⟩, hf⟩
    | fault g =>
      rw [hstep] at h
      cases h
      exact ⟨0, s, rfl, hstep⟩
    | refused r =>
      rw [hstep] at h
      cases h

end

/-! ### The statements -/

/-- Settles O36. -/
theorem everyInstructionCompletesOrFaultsInOrder : Obligations.EveryInstructionCompletesOrFaultsInOrder :=
  fun _ _ => ⟨exec_next_of_firstFault, fun _ => exec_fault_of_firstFault⟩

/-- Settles O35: the fetch and the decoder come first, then the checks of the instruction. -/
theorem faultsInTheOrderOfChecks : Obligations.FaultsInTheOrderOfChecks := by
  intro s
  refine ⟨step_fetchOutOfRange, step_fetchNotLoaded, fun w hpc hw => ⟨?_, fun i hd => ?_⟩⟩
  · rintro ⟨hset, hres⟩
    exact step_reservedEncoding hpc hw (by rw [hset, decode_fault_of_reserved hres])
  · rw [step_eq_exec hpc hw hd]
    exact ⟨fun _ => exec_fault_of_firstFault, exec_next_of_firstFault⟩

/-- Settles O37, by where the step faults and, for an instruction, by the cause. -/
theorem faultsOnlyAsTheTableLists : Obligations.FaultsOnlyAsTheTableLists := by
  intro s f h
  rcases step_fault h with ⟨i, hi, hcause⟩ | ⟨w, hset, hpc, hw, hres, rfl⟩ | ⟨hpc, hw, rfl⟩ | ⟨hpc, rfl⟩
  · cases hcause with
    | source hr hunread =>
      obtain ⟨hset, hwritten⟩ := State.readable_eq_false_iff.1 hunread
      exact ⟨hset, hwritten, i, hi, hr⟩
    | @address rs imm hcases haddr =>
      refine ⟨haddr, rs, imm, rfl, ?_⟩
      rcases hcases with rfl | rfl
      · exact .inl hi
      · exact .inr hi
    | cell hlw haddr ha hcell hset =>
      subst hlw
      exact ⟨hset, ha, hcell, _, _, hi, haddr⟩
  · exact ⟨hset, hpc, hw, hres⟩
  · exact ⟨rfl, hpc, hw⟩
  · exact ⟨rfl, hpc⟩

/-- Settles O38: the parameters leave an instruction no cause of a fault. -/
theorem totalParametersRemoveFaults : Obligations.TotalParametersRemoveFaults := by
  intro s w hignore harbitrary hdad hpc hw
  obtain ⟨i, hd⟩ := exists_decode_ignore w
  rw [step_eq_exec hpc hw (hignore ▸ hd)]
  refine exec_next_of_no_cause fun f hcause => ?_
  cases hcause with
  | source _ hunread => cases hunread.symm.trans (State.readable_of_arbitrary harbitrary)
  | address _ haddr => exact hdad _ haddr
  | cell _ _ _ _ hset => cases hset.symm.trans harbitrary

/-- Settles O40: a step that raises UninitRead finds UNINIT = fault, and a run keeps the parameters. -/
theorem unwrittenCellsNeverStopARunUnderArbitrary : Obligations.UnwrittenCellsNeverStopARunUnderArbitrary := by
  refine ⟨rfl, fun k s c harbitrary h => ?_⟩
  obtain ⟨j, u, hrun, hstep⟩ := run_fault h
  obtain ⟨-, hcfg⟩ := programIsConstantOverRuns j s u hrun
  have hset : u.cfg.uninit = .fault := by
    cases c with
    | reg r => exact (faultsOnlyAsTheTableLists u _ hstep).1
    | dmem a => exact (faultsOnlyAsTheTableLists u _ hstep).1
  rw [hcfg, harbitrary] at hset
  cases hset

/-- Settles O39. -/
theorem uninitDecidesReadability : Obligations.UninitDecidesReadability := by
  intro s r
  refine ⟨fun hset => ?_, State.readable_of_arbitrary, fun v => ⟨?_, State.setReg_reg_same s r v⟩⟩
  · simp [State.readable, hset]
  · exact State.readable_of_written (by rw [State.setReg_cell_same])

end Sys2Proof.Machine
end

section
/-! beq, jnz and jmp (spec/41_rri_immediate_and_beq.md R123, spec/42_ri_memory_jump_li.md R133, spec/43_pseudo_instructions.md
R144), and the self-branch a run ends in (spec/60_exceptions.md R163). -/

namespace Sys2Proof.Machine

open Sys2Proof.Claims

/-! ### Branches -/

section
variable {s t : State} {rs rt : Reg} {imm7 : Imm7} {imm10 : Imm10}

theorem exec_beq_eq (hrs : s.readable rs = true) (hrt : s.readable rt = true) (h : s.reg rs = s.reg rt) :
    exec (.beq rs rt imm7) s = .next (s.jump (zext imm7)) := by
  rw [exec, execBeq, withReg_readable hrs, withReg_readable hrt, h, equalSignal_self]
  rfl

theorem exec_beq_ne (hrs : s.readable rs = true) (hrt : s.readable rt = true) (h : s.reg rs ≠ s.reg rt) :
    exec (.beq rs rt imm7) s = .next s.advance := by
  rw [exec, execBeq, withReg_readable hrs, withReg_readable hrt, equalSignal, decide_eq_false h]
  rfl

theorem exec_beq_rs_unreadable (hrs : s.readable rs = false) :
    exec (.beq rs rt imm7) s = .fault (.uninitRead (.reg rs)) := by
  rw [exec, execBeq, withReg_unreadable hrs]

theorem exec_beq_rt_unreadable (hrs : s.readable rs = true) (hrt : s.readable rt = false) :
    exec (.beq rs rt imm7) s = .fault (.uninitRead (.reg rt)) := by
  rw [exec, execBeq, withReg_readable hrs, withReg_unreadable hrt]

theorem exec_jnz_ne (hrs : s.readable rs = true) (h : s.reg rs ≠ 0) :
    exec (.jnz rs imm10) s = .next (s.jump (zext imm10)) := by
  rw [exec, execJnz, withReg_readable hrs, nonZeroSignal, decide_eq_true h]
  rfl

theorem exec_jnz_zero (hrs : s.readable rs = true) (h : s.reg rs = 0) : exec (.jnz rs imm10) s = .next s.advance := by
  rw [exec, execJnz, withReg_readable hrs, nonZeroSignal, decide_eq_false (not_not.2 h)]
  rfl

theorem exec_jnz_unreadable (hrs : s.readable rs = false) :
    exec (.jnz rs imm10) s = .fault (.uninitRead (.reg rs)) := by
  rw [exec, execJnz, withReg_unreadable hrs]

theorem changesOnlyPc_jump (v : Word) : ChangesOnlyPc s (s.jump v) :=
  ⟨fun _ => rfl, ⟨fun _ => rfl, fun _ => rfl⟩, rfl, rfl⟩

end

section
variable {s : State} {n : Nat} {imm : BitVec n}

/-- A taken branch goes to its immediate (spec/30_encoding.md R69, R71). -/
theorem jump_zext_pc (hn : n ≤ 16) : (s.jump (zext imm)).pc.toNat = imm.toNat :=
  zext_toNat imm hn

/-- A target of 64 or more cannot be fetched (spec/10_state.md R28). -/
theorem step_jump_zext (hn : n ≤ 16) (h : 64 ≤ imm.toNat) :
    step (s.jump (zext imm)) = .fault (.fetchOutOfRange (s.jump (zext imm)).pc) :=
  step_fetchOutOfRange (by rwa [jump_zext_pc hn])

/-- A taken branch to its own address leaves the state as it is. -/
theorem jump_zext_self (hn : n ≤ 16) (h : s.pc.toNat = imm.toNat) : s.jump (zext imm) = s := by
  have hpc : zext imm = s.pc := BitVec.eq_of_toNat_eq (by rw [zext_toNat imm hn, h])
  rw [hpc]
  rfl

/-- Falling through from the last address leaves the instruction memory (R28). -/
theorem step_advance_of_last (h : s.pc.toNat = 63) : step s.advance = .fault (.fetchOutOfRange 64) := by
  have hpc : s.advance.pc = 64 := by
    rw [State.advance_pc, BitVec.eq_of_toNat_eq (x := s.pc) (y := 63) h]
    rfl
  rw [step_fetchOutOfRange (by rw [hpc]; decide), hpc]

end

/-! ### Final states -/

section
variable {s t : State} {i : Instr}

theorem sources_readable_of_exec_next (h : exec i s = .next t) {r : Reg} (hr : r ∈ sources i) : s.readable r = true := by
  by_contra hunread
  have hfind : (sources i).find? (fun r => !s.readable r) = none := by
    have hnone := firstFault_of_exec_next h
    unfold firstFault at hnone
    split at hnone
    · cases hnone
    · assumption
  simpa [hunread] using List.find?_eq_none.1 hfind r hr

theorem pc_add_one_ne (s : State) : s.pc + 1 ≠ s.pc := by
  bv_omega

/-- A branch instruction that is taken and whose target is its own address. -/
inductive SelfBranch (s : State) : Instr → Prop where
  | beq {rs rt : Reg} {imm : Imm7} (hrs : s.readable rs = true) (hrt : s.readable rt = true)
      (heq : s.reg rs = s.reg rt) (htarget : imm.toNat = s.pc.toNat) : SelfBranch s (.beq rs rt imm)
  | jnz {rs : Reg} {imm : Imm10} (hrs : s.readable rs = true) (hne : s.reg rs ≠ 0)
      (htarget : imm.toNat = s.pc.toNat) : SelfBranch s (.jnz rs imm)

theorem SelfBranch.exec_eq (h : SelfBranch s i) : exec i s = .next s := by
  cases h with
  | beq hrs hrt heq htarget => rw [exec_beq_eq hrs hrt heq, jump_zext_self (by decide) htarget.symm]
  | jnz hrs hne htarget => rw [exec_jnz_ne hrs hne, jump_zext_self (by decide) htarget.symm]

/-- Only a taken branch to its own address keeps the pc. -/
theorem selfBranch_of_exec_eq (hi : i.wellFormed = true) (h : exec i s = .next s) : SelfBranch s i := by
  have hread {r : Reg} (hr : r ∈ sources i) : s.readable r = true := sources_readable_of_exec_next h hr
  have hpc := (exec_effect h).pc
  cases i with
  | beq rs rt imm =>
    rw [nextPc] at hpc
    split at hpc
    · rename_i heq
      exact .beq (hread (by simp [sources])) (hread (by simp [sources])) heq
        (by rw [hpc, BitVec.toNat_setWidth_of_le (by decide)])
    · exact absurd hpc.symm (pc_add_one_ne s)
  | jnz rs imm =>
    rw [nextPc] at hpc
    split at hpc
    · rename_i hne
      exact .jnz (hread (by simp [sources])) hne (by rw [hpc, BitVec.toNat_setWidth_of_le (by decide)])
    · exact absurd hpc.symm (pc_add_one_ne s)
  | jmp => cases hi
  | _ => exact absurd hpc.symm (pc_add_one_ne s)

/-- R163: a state is final exactly at a self-branch. -/
theorem final_iff_selfBranch : s.final ↔ ∃ i, s.current = some i ∧ SelfBranch s i := by
  rw [State.final, step_next]
  refine exists_congr fun i => and_congr_right fun hi => ⟨fun h => ?_, SelfBranch.exec_eq⟩
  obtain ⟨-, w, -, hd⟩ := State.current_some.1 hi
  exact selfBranch_of_exec_eq (wellFormed_of_decode hd) h

/-! ### A run that has reached a final state, and one that has faulted, stay there -/

theorem run_of_final (h : s.final) (n : Nat) : run n s = .next s := by
  induction n with
  | zero => rfl
  | succ n ih => exact run_succ_next.2 ⟨s, h, ih⟩

theorem run_of_le_final {k n : Nat} (hrun : run k s = .next t) (hfinal : t.final) (hn : k ≤ n) : run n s = .next t := by
  obtain ⟨m, rfl⟩ := Nat.exists_eq_add_of_le hn
  rw [run_add m hrun, run_of_final hfinal]

theorem run_of_le_fault {k n : Nat} {f : Fault} (h : run k s = .fault f) (hn : k ≤ n) : run n s = .fault f := by
  obtain ⟨m, rfl⟩ := Nat.exists_eq_add_of_le hn
  induction k generalizing s with
  | zero => cases h
  | succ k ih =>
    rw [Nat.succ_add, run_succ]
    rw [run_succ] at h
    cases hstep : step s with
    | next u =>
      rw [hstep] at h
      exact ih h (Nat.le_add_right k m)
    | fault g =>
      rw [hstep] at h
      exact h
    | refused r =>
      rw [hstep] at h
      exact h

/-- A run that ends successfully never faults (R163). -/
theorem not_runFaults_of_endsSuccessfully (h : s.endsSuccessfully) : ¬ s.runFaults := by
  obtain ⟨k, t, hrun, hfinal⟩ := h
  rintro ⟨j, f, hfault⟩
  have hnext := run_of_le_final hrun hfinal (Nat.le_max_left k j)
  rw [run_of_le_fault hfault (Nat.le_max_right k j)] at hnext
  cases hnext

end

/-! ### The statements -/

/-- Settles O23: a taken beq jumps to its immediate, one not taken falls through. -/
theorem beqRule : Obligations.BeqRule := by
  intro rs rt imm
  refine ⟨fun n => assemble_of_immField (.beq rs rt) rfl, by rw [encode, rriWord_toNat]; rfl,
    fun s => ⟨fun hrs hrt => ?_, exec_beq_rs_unreadable, exec_beq_rt_unreadable⟩⟩
  by_cases h : s.reg rs = s.reg rt
  · exact ⟨_, exec_beq_eq hrs hrt h, changesOnlyPc_jump _,
      fun _ => ⟨jump_zext_pc (by decide), step_jump_zext (by decide), jump_zext_self (by decide)⟩,
      fun hne => absurd h hne⟩
  · exact ⟨_, exec_beq_ne hrs hrt h, changesOnlyPc_jump _, fun heq => absurd heq h,
      fun _ => ⟨rfl, step_advance_of_last⟩⟩

/-- Settles O29: a taken jnz jumps to its immediate, one not taken falls through. -/
theorem jnzRule : Obligations.JnzRule := by
  refine ⟨riForm_of_eq 0b110#3 (fun _ _ => rfl) fun _ _ => rfl, fun rs imm s => ⟨fun hrs => ?_, exec_jnz_unreadable⟩⟩
  by_cases h : s.reg rs = 0
  · exact ⟨_, exec_jnz_zero hrs h, changesOnlyPc_jump _, fun hne => absurd h hne, fun _ => rfl⟩
  · exact ⟨_, exec_jnz_ne hrs h, changesOnlyPc_jump _,
      fun _ => ⟨jump_zext_pc (by decide), step_jump_zext (by decide), jump_zext_self (by decide)⟩,
      fun hzero => absurd hzero h⟩

/-- Settles O33: jmp is a beq of a register with itself, so it is always taken. -/
theorem jmpRule : Obligations.JmpRule := by
  refine ⟨fun n => assemble_of_immField (.jmp 0) rfl, fun rs imm => ⟨by rw [encode, rriWord_toNat]; rfl,
    fun s => ⟨rfl, fun hrs => ?_, exec_beq_rs_unreadable (rt := rs) (imm7 := imm)⟩⟩⟩
  exact ⟨_, exec_beq_eq hrs hrs rfl, changesOnlyPc_jump _, jump_zext_pc (by decide), step_jump_zext (by decide)⟩

/-- Settles O56, by the two kinds of self-branch. -/
theorem finalExactlyAtSelfBranch : Obligations.FinalExactlyAtSelfBranch := by
  intro s
  rw [final_iff_selfBranch]
  constructor
  · rintro ⟨i, hi, hself⟩
    cases hself with
    | beq hrs hrt heq htarget => exact .inl ⟨_, _, _, hi, hrs, hrt, heq, htarget⟩
    | jnz hrs hne htarget => exact .inr ⟨_, _, hi, hrs, hne, htarget⟩
  · rintro (⟨rs, rt, imm, hi, hrs, hrt, heq, htarget⟩ | ⟨rs, imm, hi, hrs, hne, htarget⟩)
    · exact ⟨_, hi, .beq hrs hrt heq htarget⟩
    · exact ⟨_, hi, .jnz hrs hne htarget⟩

/-- Settles O57: the final state reached is at a self-branch, in the program and under the parameters of the first. -/
theorem successfulRunsEndInASelfBranchOfTheProgram : Obligations.SuccessfulRunsEndInASelfBranchOfTheProgram := by
  intro s h
  refine ⟨not_runFaults_of_endsSuccessfully h, ?_⟩
  obtain ⟨k, t, hrun, hfinal⟩ := h
  obtain ⟨himem, hcfg⟩ := programIsConstantOverRuns k s t hrun
  obtain ⟨i, hi, hself⟩ := final_iff_selfBranch.1 hfinal
  obtain ⟨hpc, w, hw, hd⟩ := State.current_some.1 hi
  rw [himem] at hw
  rw [hcfg] at hd
  refine ⟨k, t, w, fun n hn => run_of_le_final hrun hfinal hn, himem, hcfg, hpc, hw, ?_⟩
  cases hself with
  | beq hrs hrt heq htarget => exact .inl ⟨_, _, _, hd, htarget, hrs, hrt, heq⟩
  | jnz hrs hne htarget => exact .inr ⟨_, _, hd, htarget, hrs, hne⟩

end Sys2Proof.Machine
end

section
/-! Launch and reset (spec/70_reset_and_hazards.md R170 to R173), and the placing of an instruction at the pc. -/

namespace Sys2Proof.Machine

/-! ### The program of a launch -/

theorem programWellFormed_iff {program : List Word} : programWellFormed program = true ↔ program.length ≤ 64 := by
  simp [programWellFormed]

theorem lookupCell_placeWords (i p : Nat) (ws : List Word) :
    lookupCell (placeWords i ws) p = if i ≤ p then ws[p - i]? else none := by
  induction ws generalizing i with
  | nil => simp [placeWords, lookupCell]
  | cons w rest ih =>
    rw [placeWords, lookupCell, ih]
    rcases Nat.lt_trichotomy p i with hlt | rfl | hgt
    · rw [if_neg (by omega), if_neg (by omega), if_neg (by omega)]
    · simp
    · rw [if_neg (by omega), if_pos (by omega), if_pos (by omega), show p - i = (p - (i + 1)) + 1 by omega]
      rfl

/-- The program stands in IMem from address 0 on (R173). -/
theorem get_placeWords (program : List Word) (p : Nat) :
    Memory.get { cells := placeWords 0 program } p = program[p]? := by
  simp [Memory.get, lookupCell_placeWords]

/-! ### Launches -/

section
variable {c : Config} {regs : Vector Word 8} {program : List Word} {s : State}

theorem launch_eq_none (h : ¬ (c.resetPc.toNat < 64 ∧ program.length ≤ 64)) : launch c regs program = none := by
  refine Option.eq_none_iff_forall_ne_some.2 fun s hs => h ?_
  obtain ⟨hc, hprogram, -⟩ := launch_some.1 hs
  exact ⟨(config_wellFormed_iff.1 hc).1, programWellFormed_iff.1 hprogram⟩

theorem launch_cell_unwritten (h : launch c regs program = some s) (r : Reg) : (s.cell r).written = false := by
  obtain ⟨-, -, rfl⟩ := launch_some.1 h
  simp [State.cell]

theorem launch_wf (h : launch c regs program = some s) : s.wf := by
  obtain ⟨hc, hprogram, rfl⟩ := launch_some.1 h
  obtain ⟨hpc, -, -⟩ := config_wellFormed_iff.1 hc
  have hdmem : Memory.wf 32 { cells := [] } := ⟨List.Pairwise.nil, nofun⟩
  exact ⟨placeWords_wf (programWellFormed_iff.1 hprogram), hdmem, nofun, Nat.lt_trans hpc (by decide), hc⟩

end

/-! ### Placing a word at the pc -/

section
variable (s : State) (w : Word)

@[simp] theorem State.placeAtPc_x : (s.placeAtPc w).x = s.x := by unfold State.placeAtPc; split <;> rfl
@[simp] theorem State.placeAtPc_dmem : (s.placeAtPc w).dmem = s.dmem := by unfold State.placeAtPc; split <;> rfl
@[simp] theorem State.placeAtPc_io : (s.placeAtPc w).io = s.io := by unfold State.placeAtPc; split <;> rfl
@[simp] theorem State.placeAtPc_cfg : (s.placeAtPc w).cfg = s.cfg := by unfold State.placeAtPc; split <;> rfl

theorem State.placeAtPc_pc : (s.placeAtPc w).pc = if s.pc.toNat < 64 then s.pc else 0 := by
  unfold State.placeAtPc
  split <;> rfl

theorem State.placeAtPc_imem : (s.placeAtPc w).imem = s.imem.put (s.placeAtPc w).pc.toNat w := by
  unfold State.placeAtPc
  split <;> rfl

/-- The next step decodes the placed word. -/
theorem step_placeAtPc {i : Instr} (h : decode s.cfg.unaryRt w = .instr i) :
    step (s.placeAtPc w) = exec i (s.placeAtPc w) := by
  rw [step, withFetched_placeAtPc, State.placeAtPc_cfg, h]

end

/-! ### The statements -/

/-- Settles O50. -/
theorem launchIsWellFormed : Obligations.LaunchIsWellFormed :=
  fun _ _ _ _ => launch_wf

/-- Settles O53: the launch is taken apart into its checks and the state it builds. -/
theorem launchState : Obligations.LaunchState := by
  refine ⟨rfl, fun c regs program => ⟨fun hbad => launch_eq_none (by omega), fun hpc hdad hprogram => ?_, fun s h => ?_⟩⟩
  · have hc : c.wellFormed = true := config_wellFormed_iff.2 ⟨hpc, by simp [hdad], by simp [hdad]⟩
    exact ⟨_, launch_some.2 ⟨hc, programWellFormed_iff.2 hprogram, rfl⟩⟩
  · have hcells := launch_cell_unwritten h
    obtain ⟨-, -, rfl⟩ := launch_some.1 h
    exact ⟨rfl, rfl, rfl, hcells, fun _ => rfl, get_placeWords program⟩

/-- Settles O54. -/
theorem resetIsTheLaunchOfNothing : Obligations.ResetIsTheLaunchOfNothing :=
  launch_some.2 ⟨by decide, by decide, by rw [Vector.map_replicate]; rfl⟩

/-- Settles O49: the state after reset is a launch state. -/
theorem resetIsWellFormed : Obligations.ResetIsWellFormed :=
  launch_wf resetIsTheLaunchOfNothing

/-- Settles O55: every cell of the reset state holds zero, and UNINIT = arbitrary there. -/
theorem resetRegistersReadZero : Obligations.ResetRegistersReadZero := by
  intro r
  refine ⟨State.readable_of_arbitrary rfl, ?_⟩
  simp [State.reg, State.cell, State.reset]

/-- Settles O59. -/
theorem placedWordIsTheNextInstruction : Obligations.PlacedWordIsTheNextInstruction := by
  intro s w hw
  have hword : s.withFetchWord 16 w = s.placeAtPc (BitVec.ofNat 16 w) := by
    rw [State.withFetchWord, Nat.mod_eq_of_lt (show w < 2 ^ 16 from hw)]
  rw [hword]
  refine ⟨fun i => step_placeAtPc s _, by simp, by simp, by simp, by simp, fun hpc => ?_, fun p hp => ?_⟩
  · rw [State.placeAtPc_pc, if_pos hpc]
  · rw [State.placeAtPc_imem, Memory.get_put_other _ _ hp]

end Sys2Proof.Machine
end

section
/-! Instructions whose outcome the open parameters do not change (spec/92_eei_decisions.md, the paragraph on programs that do
not depend on the open parameters). -/

namespace Sys2Proof.Machine

open Sys2Proof.Claims

/-! ### Values the parameters do not change -/

section
variable {c : Config} {a b : Word} {imm : Imm10}

/-- With equal top bits the signed order is the unsigned one, whatever CMP_SIGNED says (R115). -/
theorem lessSignal_of_topBits_eq (h : a.getLsbD 15 = b.getLsbD 15) : lessSignal c a b = decide (a.toNat < b.toNat) := by
  cases hc : c.cmpSigned with
  | true => rw [lessSignal_signed a b hc, decide_eq_decide, toInt_lt_iff_toNat_lt, h]
  | false => exact lessSignal_unsigned a b hc

theorem signalWord_lessSignal_of_topBits_eq (c' : Config) (h : a.getLsbD 15 = b.getLsbD 15) :
    signalWord (lessSignal c' a b) = signalWord (lessSignal c a b) := by
  rw [lessSignal_of_topBits_eq h, lessSignal_of_topBits_eq h]

/-- A li immediate below 512 is widened with zeros, whatever LI_EXT says (spec/30_encoding.md R72). -/
theorem liValue_of_lt (h : imm.toNat < 512) : liValue c imm = zext imm := by
  unfold liValue
  split
  · apply BitVec.eq_of_toNat_eq
    rw [sext_toNat imm (by decide), if_pos (by omega), zext_toNat imm (by decide)]
  · rfl

end

/-! ### Operations under other parameters -/

section
variable {s : State} {c : Config} {r rd rs rt : Reg} {imm : Imm10}

theorem withReg_withCfg {k k' : Word → Result} (hr : (s.cell r).written = true)
    (hk : k' (s.reg r) = withCfg c (k (s.reg r))) :
    withReg { s with cfg := c } r k' = withCfg c (withReg s r k) := by
  have hr' : ({ s with cfg := c } : State).readable r = true := State.readable_of_written hr
  rw [withReg_readable hr', withReg_readable (State.readable_of_written hr)]
  exact hk

theorem binaryOp_withCfg {g g' : Word → Word → Word} (hrs : (s.cell rs).written = true)
    (hrt : (s.cell rt).written = true) (hg : g' (s.reg rs) (s.reg rt) = g (s.reg rs) (s.reg rt)) :
    binaryOp g' rd rs rt { s with cfg := c } = withCfg c (binaryOp g rd rs rt s) := by
  refine withReg_withCfg hrs (withReg_withCfg hrt ?_)
  rw [hg]
  rfl

theorem unaryOp_withCfg {g : Word → Word} (hrs : (s.cell rs).written = true) :
    unaryOp g rd rs { s with cfg := c } = withCfg c (unaryOp g rd rs s) :=
  withReg_withCfg hrs rfl

theorem branch_withCfg (taken : Bool) (v : Word) :
    ({ s with cfg := c } : State).branch taken v = { s.branch taken v with cfg := c } := by
  cases taken <;> rfl

theorem execBeq_withCfg {imm : Imm7} (hrs : (s.cell rs).written = true) (hrt : (s.cell rt).written = true) :
    execBeq rs rt imm { s with cfg := c } = withCfg c (execBeq rs rt imm s) :=
  withReg_withCfg hrs (withReg_withCfg hrt (congrArg Host.Outcome.next (branch_withCfg _ _)))

theorem execJnz_withCfg (hrs : (s.cell rs).written = true) :
    execJnz rs imm { s with cfg := c } = withCfg c (execJnz rs imm s) :=
  withReg_withCfg hrs (congrArg Host.Outcome.next (branch_withCfg _ _))

theorem memWrite_withCfg (a : DAddr) (v : Word) :
    memWrite { s with cfg := c } a v = { memWrite s a v with cfg := c } := by
  unfold memWrite
  split <;> rfl

theorem exec_lw_withCfg (himm : imm.toNat < 64) (hcell : imm.toNat < 32 → s.dmem.get imm.toNat ≠ none) :
    exec (.lw rs imm) { s with cfg := c } = withCfg c (exec (.lw rs imm) s) := by
  have haddr (c : Config) := dad_imm_of_lt c himm
  by_cases h : imm.toNat < 32
  · obtain ⟨v, hv⟩ := Option.ne_none_iff_exists'.1 (hcell h)
    rw [← imm_toNat_dataAddress himm] at h hv
    have hunder := exec_lw_dmem (s := { s with cfg := c }) (rs := rs) (haddr c) h (State.dmemValue_of_get hv)
    rw [hunder, exec_lw_dmem (haddr s.cfg) h (State.dmemValue_of_get hv)]
    rfl
  · rw [← imm_toNat_dataAddress himm, Nat.not_lt] at h
    have hunder := exec_lw_io (s := { s with cfg := c }) (rs := rs) (haddr c) h
    rw [hunder, exec_lw_io (haddr s.cfg) h]
    rfl

theorem exec_sw_withCfg (himm : imm.toNat < 64) (hrs : (s.cell rs).written = true) :
    exec (.sw rs imm) { s with cfg := c } = withCfg c (exec (.sw rs imm) s) := by
  have haddr (c : Config) := dad_imm_of_lt c himm
  have hrs' : ({ s with cfg := c } : State).readable rs = true := State.readable_of_written hrs
  rw [exec_sw_decoded hrs' (haddr _), exec_sw_decoded (State.readable_of_written hrs) (haddr _), memWrite_withCfg]
  rfl

theorem exec_li_withCfg (himm : imm.toNat < 512) :
    exec (.li rs imm) { s with cfg := c } = withCfg c (exec (.li rs imm) s) := by
  rw [exec, execLi, exec, execLi, liValue_of_lt himm, liValue_of_lt himm]
  rfl

theorem exec_slt_withCfg (hrs : (s.cell rs).written = true) (hrt : (s.cell rt).written = true)
    (htop : (s.reg rs).getLsbD 15 = (s.reg rt).getLsbD 15) :
    exec (.slt rd rs rt) { s with cfg := c } = withCfg c (exec (.slt rd rs rt) s) :=
  binaryOp_withCfg (g := fun a b => signalWord (lessSignal s.cfg a b))
    (g' := fun a b => signalWord (lessSignal c a b)) hrs hrt (signalWord_lessSignal_of_topBits_eq c htop)

theorem exec_sgt_withCfg (hrs : (s.cell rs).written = true) (hrt : (s.cell rt).written = true)
    (htop : (s.reg rs).getLsbD 15 = (s.reg rt).getLsbD 15) :
    exec (.sgt rd rs rt) { s with cfg := c } = withCfg c (exec (.sgt rd rs rt) s) :=
  binaryOp_withCfg (g := fun a b => signalWord (greaterSignal s.cfg a b))
    (g' := fun a b => signalWord (greaterSignal c a b)) hrs hrt (signalWord_lessSignal_of_topBits_eq c htop.symm)

end

/-! ### Instructions of the parameter-free kind -/

section
variable {i : Instr} {s : State}

/-- Nothing can make such an instruction fault. -/
theorem not_cause_of_parameterFree (h : ParameterFree i s) (f : Fault) : ¬ Cause i s f := by
  obtain ⟨hwritten, hkind⟩ := h
  intro hcause
  cases hcause with
  | source hr hunread => cases hunread.symm.trans (State.readable_of_written (hwritten _ hr))
  | address hi haddr =>
    rcases hi with rfl | rfl
    · obtain ⟨himm, -⟩ := hkind
      cases haddr.symm.trans (dad_imm_of_lt s.cfg himm)
    · cases haddr.symm.trans (dad_imm_of_lt s.cfg hkind)
  | cell hi haddr ha hcell =>
    subst hi
    obtain ⟨himm, hstored⟩ := hkind
    cases haddr.symm.trans (dad_imm_of_lt s.cfg himm)
    rw [imm_toNat_dataAddress himm] at ha hcell
    exact hstored ha hcell

theorem exec_withCfg_of_parameterFree (h : ParameterFree i s) (c : Config) :
    exec i { s with cfg := c } = withCfg c (exec i s) := by
  obtain ⟨hwritten, hkind⟩ := h
  cases i with
  | add rd rs rt | sub rd rs rt | and rd rs rt | or rd rs rt | nand rd rs rt | xor rd rs rt | mul rd rs rt =>
    exact binaryOp_withCfg (hwritten rs (by simp [sources])) (hwritten rt (by simp [sources])) rfl
  | slt rd rs rt => exact exec_slt_withCfg (hwritten rs (by simp [sources])) (hwritten rt (by simp [sources])) hkind
  | sgt rd rs rt => exact exec_sgt_withCfg (hwritten rs (by simp [sources])) (hwritten rt (by simp [sources])) hkind
  | inc rd rs | dec rd rs | shfl rd rs | shfr rd rs | sll rd rs | srr rd rs | sra rd rs | addi rd rs | subi rd rs | nop rs =>
    exact unaryOp_withCfg (hwritten rs (by simp [sources]))
  | not rd rs | mov rd rs =>
    have hrs := hwritten rs (by simp [sources])
    exact binaryOp_withCfg hrs hrs rfl
  | beq rs rt => exact execBeq_withCfg (hwritten rs (by simp [sources])) (hwritten rt (by simp [sources]))
  | jmp rs =>
    have hrs := hwritten rs (by simp [sources])
    exact execBeq_withCfg hrs hrs
  | jnz rs => exact execJnz_withCfg (hwritten rs (by simp [sources]))
  | lw rs imm =>
    obtain ⟨himm, hstored⟩ := hkind
    exact exec_lw_withCfg himm hstored
  | sw rs imm => exact exec_sw_withCfg hkind (hwritten rs (by simp [sources]))
  | li rs imm => exact exec_li_withCfg hkind

end

/-! ### The statement -/

/-- Settles O58. -/
theorem parameterFreeInstructionsDoNotDependOnParameters :
    Obligations.ParameterFreeInstructionsDoNotDependOnParameters :=
  fun _ _ c h => ⟨exec_next_of_no_cause (not_cause_of_parameterFree h), exec_withCfg_of_parameterFree h c⟩

end Sys2Proof.Machine
end
